-- ==== Sys2Proof/Word.lean ====
section
/-! DEFINITION. The bit vectors of the block: every value is an unsigned vector of a stated width
(00_scope.md R8). -/

namespace Sys2Proof

/-- One bit of an encoding. -/
abbrev Bit := BitVec 1

/-- The value of a hex digit (30_encoding.md R49). -/
abbrev Nibble := BitVec 4

/-- A byte, or one character at the HEX port (00_scope.md R7 `CHAR_W`). -/
abbrev Byte := BitVec 8

/-- The byte counter's width (00_scope.md R7 `HX_N_W`). -/
abbrev Count := BitVec 9

/-- A record's address (30_encoding.md R52). -/
abbrev Half := BitVec 16

/-- The CRC accumulator's width (00_scope.md R7 `CRC_W`). -/
abbrev Word := BitVec 32

/-- A command word of the CRC port (30_encoding.md R46). -/
abbrev CrcCmd := BitVec 33

end Sys2Proof
end

