-- ==== Sys2Proof/Config.lean ====
section
/-! DEFINITION. The parameters of the block (00_scope.md R7) and the free values the spec leaves open
(00_scope.md section 6, `UNSPEC_N`; 93_implementation_defined.md part 1). -/

namespace Sys2Proof.Config

/-- `CRC_W` (R7). -/
def crcWidth : Nat := 32

/-- `CRC_POLY` (R7). -/
def crcPoly : Word := 0x04C11DB7#32

/-- `CRC_REFIN` (R7): input bytes are not bit-reversed. -/
def crcRefIn : Bool := false

/-- `CRC_REFOUT` (R7): the result is not bit-reversed. -/
def crcRefOut : Bool := false

/-- `CRC_XOROUT` (R7). -/
def crcXorOut : Word := 0x00000000#32

/-- `CRC_SEED_ENV` (R7): the seed the environment passes; no property of the unit. -/
def crcSeedEnv : Word := 0xFFFFFFFF#32

/-- `CHAR_W` (R7). -/
def charWidth : Nat := 8

/-- `HX_SOR_CODE` (R7): the character `:`. -/
def hxSorCode : Byte := 0x3A#8

/-- LF, the first of `HX_EOL_CODES` (R7). -/
def hxLfCode : Byte := 0x0A#8

/-- CR, the second of `HX_EOL_CODES` (R7). -/
def hxCrCode : Byte := 0x0D#8

/-- `HEX_CAP` (R7, R34; 90_conflicts.md C1). Log 11. -/
def hexCap : Nat := 261

/-- The two values of `HEX_STOP_POLICY` (R7, 41_hex_decoder.md R91, R92). -/
inductive StopPolicy where
  | strict
  | lenient
deriving DecidableEq, Repr

/-- `HEX_STOP_POLICY` (R7; 90_conflicts.md C2). Log 12. -/
def hexStopPolicy : StopPolicy := .strict

/-- `HX_N_W` (R7). -/
def hxNWidth : Nat := 9

/-- `REC_COUNT_MAX` (R7). -/
def recCountMax : Nat := 255

/-- The `n`-th free 32-bit value (`UNSPEC_32`): nothing constrains it. Log 7. -/
opaque unspecWord : Nat → Word

/-- The `n`-th free byte (`UNSPEC_8`): nothing constrains it. Log 7. -/
opaque unspecByte : Nat → Byte

/-- The `n`-th free 16-bit value (`UNSPEC_16`): nothing constrains it. Logs 7, 20. -/
opaque unspecHalf : Nat → Half

end Sys2Proof.Config
end

