-- ==== Sys2Proof/Syntax.lean ====
section
/-! DEFINITION. What a client can present to the two units, and the operations (30_encoding.md R45 to R48, R59):
one constructor of `Instr` for each row of spec/opcode_table.json. -/

namespace Sys2Proof

/-- An operation as it is presented (R45): a command word at the CRC port (format `CRC-CMD`) or a character at the
HEX port (format `HX-CHAR`). -/
inductive Command where
  | crc (cmd : CrcCmd)
  | hx (c : Byte)
deriving DecidableEq, Repr

/-- The five classes of characters (R48). -/
inductive CharClass where
  | sor
  | eol
  | dec
  | alpha
  | other
deriving DecidableEq, Repr

/-- The operations of the block (00_scope.md R9: "instruction" = operation). Bits that an encoding ignores are kept
as operands, so that a word and its operation determine each other (log 16). -/
inductive Instr where
  /-- `CRC.INIT s` (R67). -/
  | crcInit (seed : Word)
  /-- `CRC.BYTE b` (R68); `ignored` is `arg[31:8]`. -/
  | crcByte (ignored : BitVec 24) (b : Byte)
  /-- `HX.SOR` (R81). -/
  | hxSor
  /-- `HX.EOL` by LF (R88). -/
  | hxEolLf
  /-- `HX.EOL` by CR (R88). -/
  | hxEolCr
  /-- `HX.DEC`, the digits 0 to 7 (R82); `v` is `c[2:0]`. -/
  | hxDec07 (v : BitVec 3)
  /-- `HX.DEC`, the digits 8 and 9 (R82); `v` is `c[0]`. -/
  | hxDec89 (v : Bit)
  /-- `HX.ALPHA`, `A` or `a` (R83); `k` is the case bit `c[5]`. -/
  | hxAlphaA (k : Bit)
  /-- `HX.ALPHA`, `B`, `C` or their small letters (R83); `k` is `c[5]`, `v` is `c[0]`. -/
  | hxAlphaBC (k : Bit) (v : Bit)
  /-- `HX.ALPHA`, `D`, `E` or their small letters (R83); `k` is `c[5]`, `v` is `c[0]`. -/
  | hxAlphaDE (k : Bit) (v : Bit)
  /-- `HX.ALPHA`, `F` or `f` (R83); `k` is the case bit `c[5]`. -/
  | hxAlphaF (k : Bit)
  /-- `HX.OTHER` (R87): the code `c` of the character. -/
  | hxOther (c : Byte)
deriving DecidableEq, Repr

end Sys2Proof
end

