-- ==== Sys2Proof/Machine/State.lean ====
section
/-! DEFINITION. The state of the block (10_state.md), what its clients have still to present, what it has put out,
and the reasons a step can stop. -/

namespace Sys2Proof.Machine

/-- The values of `hx_phase` (R11). -/
inductive Phase where
  /-- No `:` seen on this line yet. -/
  | seek
  /-- The next character is expected to be the high digit of a pair. -/
  | hi
  /-- The high digit is held in `hx_nib`. -/
  | lo
  /-- Consumption of bytes has stopped for this line. -/
  | skip
deriving DecidableEq, Repr

/-- The verdict on a line, the output event of the HEX unit (R90). -/
structure Verdict where
  valid : Bool
  err : BitVec 5
  nbytes : Count
deriving DecidableEq, Repr

/-- The outputs a client can read (R21, R93). -/
inductive Port where
  | crcOut
  | nbytes
  | rbRead (i : Count)
  | recCount
  | recAddr
  | recType
  | recPayload (k : Byte)
  | recChecksum
deriving DecidableEq, Repr

/-- What can happen at the block's boundary next: a client presents an operation (R6), reads an output (R21), or
reset occurs (R135). Logs 1, 8, 13. -/
inductive Event where
  | op (c : Command)
  | read (p : Port)
  | reset
deriving DecidableEq, Repr

/-- What the block puts out: a verdict (R90), or the value a read returned (R21, R93). Log 3. -/
inductive Output where
  | verdict (v : Verdict)
  | crcOut (value : Word)
  | nbytes (value : Count)
  | rbRead (i : Count) (value : Byte)
  | recCount (value : Byte)
  | recAddr (value : Half)
  | recType (value : Byte)
  | recPayload (k : Byte) (value : Byte)
  | recChecksum (value : Byte)
deriving DecidableEq, Repr

/-- The bytes of the record buffer that hold a value, by index, strictly rising (R30). Log 6. -/
abbrev Memory := List Host.Cell

/-- Why the machine stops with a fault. -/
inductive Fault where
  /-- A byte commit (R85) at an index outside the record buffer, which R30 says does not exist. Raised by the digit
  operations in phase LO with `hx_n >= HEX_CAP` only, which no run from reset reaches (R85); safe. Log 10. -/
  | recordIndexOutOfRange
deriving DecidableEq, Repr

/-- Why a step is refused. -/
inductive Refusal where
  /-- An operation without a meaning yet; no arm of `exec` answers it any more. Safe. -/
  | notModelled (mnemonic : String)
  /-- A read of `rb_read(i)` with `i >= HEX_CAP`: "the port does not accept it (a model refuses such a read;
  nothing is returned)" (R32). Raised by the reading of an output only; safe. Log 8. -/
  | rbIndexNotAccepted (i : Count)
deriving DecidableEq, Repr

/-- The state of the block and, after it, the model's own bookkeeping. -/
structure State where
  /-- `crc_acc` (R10). -/
  crcAcc : Word
  /-- The model's: `CRC.INIT` has been performed since reset, so that `crc_acc` is specified (R20, R67). Log 4. -/
  crcSpec : Bool
  /-- `hx_phase` (R11). -/
  hxPhase : Phase
  /-- `hx_nib` (R12). -/
  hxNib : Nibble
  /-- `hx_n` (R13). -/
  hxN : Count
  /-- `hx_sum` (R14). -/
  hxSum : Byte
  /-- `hx_bad` (R15). -/
  hxBad : Bool
  /-- `hx_ovf` (R15). -/
  hxOvf : Bool
  /-- `hx_rb` (R30). -/
  hxRb : Memory
  /-- The model's: how many free values have been drawn. Log 7. -/
  draws : Nat
  /-- The model's: what happens at the boundary next, first entry first. Log 1. -/
  pending : List Event
  /-- The model's: what the block has put out, oldest first. Log 3. -/
  outputs : List Output
deriving DecidableEq, Repr

/-- The state after reset (R20). `crc_acc` and `hx_nib` are unspecified there; their fields hold a named value that no
operation reads (logs 4, 5). No byte of the record buffer holds a value (log 6). -/
def State.reset : State where
  crcAcc := 0x00000000#32
  crcSpec := false
  hxPhase := .seek
  hxNib := 0x0#4
  hxN := 0#9
  hxSum := 0#8
  hxBad := false
  hxOvf := false
  hxRb := []
  draws := 0
  pending := []
  outputs := []

end Sys2Proof.Machine
end

