-- ==== Sys2Proof/Machine/Flags.lean ====
section
/-! DEFINITION. The conditions computed at the end of a line: the cause mask, validity under both stop policies, the
verdict (41_hex_decoder.md section 3). -/

namespace Sys2Proof.Machine

/-- The causes of rejection (R121). -/
inductive Cause where
  | noStart
  | badDigit
  | overrun
  | empty
  | checksum
deriving DecidableEq, Repr

/-- The bit of a cause in `err` (R121). -/
def causeBit : Cause → Nat
  | .noStart => 0
  | .badDigit => 1
  | .overrun => 2
  | .empty => 3
  | .checksum => 4

/-- `found = (hx_phase != SEEK)` (R89). -/
def markerFound (s : State) : Bool := s.hxPhase != .seek

/-- Whether a cause applies at the end of the line (R89). -/
def causeApplies (s : State) : Cause → Bool
  | .noStart => !markerFound s
  | .badDigit => s.hxBad || s.hxPhase == .lo
  | .overrun => s.hxOvf
  | .empty => markerFound s && s.hxN == 0#9
  | .checksum => markerFound s && s.hxN != 0#9 && s.hxSum != 0#8

/-- A cause's part of `err`: "the value of a single cause is `1 << bit`" (R121), nothing where it does not apply. -/
def causeMask (c : Cause) (applies : Bool) : BitVec 5 := if applies then 1#5 <<< causeBit c else 0#5

/-- `err_mask(state)` (R89): "All the bits that apply are set together". -/
def errMask (s : State) : BitVec 5 :=
  causeMask .noStart (causeApplies s .noStart) ||| causeMask .badDigit (causeApplies s .badDigit)
    ||| causeMask .overrun (causeApplies s .overrun) ||| causeMask .empty (causeApplies s .empty)
    ||| causeMask .checksum (causeApplies s .checksum)

/-- `valid_of(err)` under STRICT (R91) and under LENIENT (R92). -/
def validOf (p : Config.StopPolicy) (err : BitVec 5) : Bool :=
  match p with
  | .strict => err == 0b00000#5
  | .lenient => !err.getLsbD 0 && !err.getLsbD 3 && !err.getLsbD 4

/-- The verdict `HX.EOL` emits (R88, R90), under a stop policy. -/
def verdictUnder (p : Config.StopPolicy) (s : State) : Verdict where
  valid := validOf p (errMask s)
  err := errMask s
  nbytes := if markerFound s then s.hxN else 0#9

/-- The verdict `HX.EOL` emits on this hardware (R7 `HEX_STOP_POLICY`). -/
def verdictOf (s : State) : Verdict := verdictUnder Config.hexStopPolicy s

end Sys2Proof.Machine
end

