-- ==== Sys2Proof/Decode.lean ====
section
/-! DEFINITION. From presented bits to operations and back (30_encoding.md R46, R48, R59; spec/opcode_table.json).
Every command word and every character decodes (R54); only a number that is no word of a port is rejected. -/

namespace Sys2Proof

/-- A row of the HEX port's table (R59): a code is in the row when `c & mask = match`. -/
structure CodeRow where
  pattern : Byte
  mask : Byte
deriving DecidableEq, Repr

/-- "a code is in the row when `c & mask = match`" (R59). -/
def CodeRow.takes (r : CodeRow) (c : Byte) : Bool := c &&& r.mask == r.pattern

/-- R59 row 1. -/
def rowSor : CodeRow := { pattern := 0x3A#8, mask := 0xFF#8 }
/-- R59 row 2. -/
def rowEolLf : CodeRow := { pattern := 0x0A#8, mask := 0xFF#8 }
/-- R59 row 3. -/
def rowEolCr : CodeRow := { pattern := 0x0D#8, mask := 0xFF#8 }
/-- R59 row 4. -/
def rowDec07 : CodeRow := { pattern := 0x30#8, mask := 0xF8#8 }
/-- R59 row 5. -/
def rowDec89 : CodeRow := { pattern := 0x38#8, mask := 0xFE#8 }
/-- R59 row 6. -/
def rowAlphaA : CodeRow := { pattern := 0x41#8, mask := 0xDF#8 }
/-- R59 row 7. -/
def rowAlphaBC : CodeRow := { pattern := 0x42#8, mask := 0xDE#8 }
/-- R59 row 8. -/
def rowAlphaDE : CodeRow := { pattern := 0x44#8, mask := 0xDE#8 }
/-- R59 row 9. -/
def rowAlphaF : CodeRow := { pattern := 0x46#8, mask := 0xDF#8 }

/-- Rows 1 to 9 of R59; row 10 is what none of them takes. -/
def hxRows : List CodeRow :=
  [rowSor, rowEolLf, rowEolCr, rowDec07, rowDec89, rowAlphaA, rowAlphaBC, rowAlphaDE, rowAlphaF]

/-- The low bit of a character, the field `v` of the two-code rows. -/
def charLowBit (c : Byte) : Bit := c.extractLsb' 0 1

/-- The case bit of a letter, bit 5 (R59). -/
def charCaseBit (c : Byte) : Bit := c.extractLsb' 5 1

/-- The operation a character selects (R48, R59). -/
def decodeHx (c : Byte) : Instr :=
  if rowSor.takes c then .hxSor
  else if rowEolLf.takes c then .hxEolLf
  else if rowEolCr.takes c then .hxEolCr
  else if rowDec07.takes c then .hxDec07 (c.extractLsb' 0 3)
  else if rowDec89.takes c then .hxDec89 (charLowBit c)
  else if rowAlphaA.takes c then .hxAlphaA (charCaseBit c)
  else if rowAlphaBC.takes c then .hxAlphaBC (charCaseBit c) (charLowBit c)
  else if rowAlphaDE.takes c then .hxAlphaDE (charCaseBit c) (charLowBit c)
  else if rowAlphaF.takes c then .hxAlphaF (charCaseBit c)
  else .hxOther c

/-- The field `op` of a command word, bit 32 (R46). -/
def cmdOp (cmd : CrcCmd) : Bool := cmd.getLsbD 32

/-- The operation a command word selects (R46). -/
def decodeCrc (cmd : CrcCmd) : Instr :=
  if cmdOp cmd then .crcByte (cmd.extractLsb' 8 24) (cmd.extractLsb' 0 8)
  else .crcInit (cmd.extractLsb' 0 32)

/-- The operation a client presents. It is total: "No encoding makes the block trap and none is undefined" (R54). -/
def decode : Command → Instr
  | .crc cmd => decodeCrc cmd
  | .hx c => decodeHx c

/-- The code of a decimal digit 0 to 7: `00110vvv` (opcode_table.json). -/
def codeDec07 (v : BitVec 3) : Byte := 0b00110#5 ++ v
/-- The code of the digit 8 or 9: `0011100v` (opcode_table.json). -/
def codeDec89 (v : Bit) : Byte := 0b0011100#7 ++ v
/-- The code of `A` or `a`: `01k00001` (opcode_table.json). -/
def codeAlphaA (k : Bit) : Byte := 0b01#2 ++ k ++ 0b00001#5
/-- The code of `B`, `C`, `b` or `c`: `01k0001v` (opcode_table.json). -/
def codeAlphaBC (k v : Bit) : Byte := 0b01#2 ++ k ++ 0b0001#4 ++ v
/-- The code of `D`, `E`, `d` or `e`: `01k0010v` (opcode_table.json). -/
def codeAlphaDE (k v : Bit) : Byte := 0b01#2 ++ k ++ 0b0010#4 ++ v
/-- The code of `F` or `f`: `01k00110` (opcode_table.json). -/
def codeAlphaF (k : Bit) : Byte := 0b01#2 ++ k ++ 0b00110#5

/-- The words of an operation (R46, R59, opcode_table.json). -/
def encode : Instr → Command
  | .crcInit seed => .crc (0b0#1 ++ seed)
  | .crcByte ignored b => .crc (0b1#1 ++ ignored ++ b)
  | .hxSor => .hx Config.hxSorCode
  | .hxEolLf => .hx Config.hxLfCode
  | .hxEolCr => .hx Config.hxCrCode
  | .hxDec07 v => .hx (codeDec07 v)
  | .hxDec89 v => .hx (codeDec89 v)
  | .hxAlphaA k => .hx (codeAlphaA k)
  | .hxAlphaBC k v => .hx (codeAlphaBC k v)
  | .hxAlphaDE k v => .hx (codeAlphaDE k v)
  | .hxAlphaF k => .hx (codeAlphaF k)
  | .hxOther c => .hx c

/-- The class of a character by the ranges of R48, written independently of the rows of R59. -/
def charClass (c : Byte) : CharClass :=
  if c = 0x3A#8 then .sor
  else if c = 0x0A#8 ∨ c = 0x0D#8 then .eol
  else if 0x30#8 ≤ c ∧ c ≤ 0x39#8 then .dec
  else if (0x41#8 ≤ c ∧ c ≤ 0x46#8) ∨ (0x61#8 ≤ c ∧ c ≤ 0x66#8) then .alpha
  else .other

/-- Why a number is no word of a port. -/
inductive DecodeError where
  /-- No port takes words of so many bits (R45 gives widths 33 and 8). -/
  | noSuchWidth (nbits : Nat)
  /-- A bit is set above the word (the 33-bit command word in five bytes, or the 8-bit character). -/
  | bitsAboveWord (w : Nat)
deriving DecidableEq, Repr

/-- The word that a number stands for: 8 bits are a character, 33 bits (40 in whole bytes) a command word (log 15). -/
def commandOfWord (nbits w : Nat) : Except DecodeError Command :=
  if nbits = 8 then
    if w < 2 ^ 8 then .ok (.hx (BitVec.ofNat 8 w)) else .error (.bitsAboveWord w)
  else if 33 ≤ nbits ∧ nbits ≤ 40 then
    if w < 2 ^ 33 then .ok (.crc (BitVec.ofNat 33 w)) else .error (.bitsAboveWord w)
  else .error (.noSuchWidth nbits)

/-- The operation that the decoder reads from a number laid out as opcode_table.json numbers bits. -/
def decodeTableWord (nbits w : Nat) : Option Instr :=
  match commandOfWord nbits w with
  | .ok c => some (decode c)
  | .error _ => none

end Sys2Proof
end

