-- ==== Sys2Proof/Machine/Operands.lean ====
section
/-! DEFINITION. How operands are assembled (30_encoding.md section 3): nibbles from characters, bytes from pairs, the
address from bytes; the sender's checksum byte; the record type codes; the codes of the phases. -/

namespace Sys2Proof.Machine

/-- `nib(c) = c[3:0]` for class `HX.DEC` (R49). -/
def nibDec (c : Byte) : Nibble := c.extractLsb' 0 4

/-- `nib(c) = c[3:0] +_4 9` for class `HX.ALPHA` (R49). -/
def nibAlpha (c : Byte) : Nibble := c.extractLsb' 0 4 + 9#4

/-- `nib(c)` (R49), none for the classes where "`nib` is not defined". -/
def nib (c : Byte) : Option Nibble :=
  match charClass c with
  | .dec => some (nibDec c)
  | .alpha => some (nibAlpha c)
  | .sor => none
  | .eol => none
  | .other => none

/-- A byte from a hex pair, high digit first (R50). -/
def byteOfPair (high low : Nibble) : Byte := high ++ low

/-- The 16-bit address, byte 1 the high byte (R52). -/
def addressOf (byte1 byte2 : Byte) : Half := byte1 ++ byte2

/-- The running sum of a sequence of bytes, modulo 256 (R86). -/
def sumBytes : List Byte → Byte
  | [] => 0#8
  | b :: bs => b + sumBytes bs

/-- The checksum byte a sender must append (R58). -/
def checksumByte (bs : List Byte) : Byte := 0#8 - sumBytes bs

/-- The record types PFL names (R53). -/
inductive RecordType where
  | data
  | endOfFile
  | extendedSegmentAddress
  | startSegmentAddress
  | extendedLinearAddress
  | startLinearAddress
  | unnamed (code : Byte)
deriving DecidableEq, Repr

/-- The name of a `recordType` byte (R53; codes 2 to 5 are the spec's from general knowledge, G2). No operation of the
block uses it. -/
def recordTypeOf (code : Byte) : RecordType :=
  if code = 0x00#8 then .data
  else if code = 0x01#8 then .endOfFile
  else if code = 0x02#8 then .extendedSegmentAddress
  else if code = 0x03#8 then .startSegmentAddress
  else if code = 0x04#8 then .extendedLinearAddress
  else if code = 0x05#8 then .startLinearAddress
  else .unnamed code

/-- The two-bit codes of the phases (R11); no output shows them. -/
def phaseCode : Phase → BitVec 2
  | .seek => 0b00#2
  | .hi => 0b01#2
  | .lo => 0b10#2
  | .skip => 0b11#2

end Sys2Proof.Machine
end

