-- ==== Sys2Proof/Machine/Ops.lean ====
section
/-! DEFINITION. The shared operations: the record buffer's memory, free values, what the outside presents and is given,
raising a cause, the byte commit, the digit operation, the end of a line, reset. -/

namespace Sys2Proof.Machine

/-- The three outcomes of this block's operations. -/
abbrev StepResult := Host.Outcome State Fault Refusal

/-- The canonical form of the record buffer: indexes strictly rising, each inside the buffer (R30). Log 6. -/
abbrev Memory.wf (m : Memory) : Prop :=
  m.Pairwise (fun x y => x.1 < y.1) ∧ ∀ x ∈ m, x.1 < Config.hexCap

/-- The byte held at an index; an index that is not listed holds no value. Log 6. -/
def Memory.read (m : Memory) (a : Nat) : Option Byte :=
  match m with
  | [] => none
  | (a', b) :: rest => if a' = a then some b else Memory.read rest a

/-- `MemWrite(a, 1, b)` (00_scope.md section 6), in the canonical form. -/
def Memory.write (m : Memory) (a : Nat) (b : Byte) : Memory :=
  match m with
  | [] => [(a, b)]
  | (a', b') :: rest =>
    if a < a' then (a, b) :: (a', b') :: rest
    else if a' = a then (a, b) :: rest
    else (a', b') :: Memory.write rest a b

/-- The sum modulo 256 of the bytes below an index (R22(b)); a byte without a value counts as 0. -/
def Memory.sumBelow (m : Memory) : Nat → Byte
  | 0 => 0#8
  | n + 1 => Memory.sumBelow m n + (Memory.read m n).getD 0#8

/-- The bytes below an index, in order, those without a value left out. -/
def Memory.bytesBelow (m : Memory) : Nat → List Byte
  | 0 => []
  | n + 1 => Memory.bytesBelow m n ++ (Memory.read m n).toList

/-- A free byte, fresh at every draw. Log 7. -/
def drawByte (s : State) : Byte × State :=
  (Config.unspecByte s.draws, { s with draws := s.draws + 1 })

/-- A free 16-bit value, fresh at every draw. Logs 7, 20. -/
def drawHalf (s : State) : Half × State :=
  (Config.unspecHalf s.draws, { s with draws := s.draws + 1 })

/-- A free 32-bit value, fresh at every draw. Log 7. -/
def drawWord (s : State) : Word × State :=
  (Config.unspecWord s.draws, { s with draws := s.draws + 1 })

/-- The block puts something out (R90, R21). Log 3. -/
def emit (o : Output) (s : State) : State := { s with outputs := s.outputs ++ [o] }

/-- Something stands first among what happens next. -/
def present (e : Event) (s : State) : State := { s with pending := e :: s.pending }

/-- What is presented next, and the state in which it is performed: the model's fetch. Log 1. -/
def takeEvent (s : State) : Option (Event × State) :=
  match s.pending with
  | [] => none
  | e :: rest => some (e, { s with pending := rest })

/-- The accumulator as an operation or a read finds it (R10): specified after `CRC.INIT`, a free value before
(R138). Log 4. -/
def readAcc (s : State) : Word × State :=
  if s.crcSpec then (s.crcAcc, s) else drawWord s

/-- `crc_acc <- v`. -/
def writeAcc (v : Word) (s : State) : State := { s with crcAcc := v }

/-- `CRC.INIT` "is what makes `crc_acc` specified after reset" (R67). Log 4. -/
def markSpecified (s : State) : State := { s with crcSpec := true }

/-- The marker accepted in phase SEEK: "`hx_n <- 0; hx_sum <- 0; hx_phase <- HI`" (R81). -/
def startRecord (s : State) : State := { s with hxN := 0#9, hxSum := 0#8, hxPhase := .hi }

/-- The causes detected in the middle of a line (R120), each with its sticky flag (R15). -/
inductive StickyCause where
  | badDigit
  | overrun
deriving DecidableEq, Repr

/-- `raise <Cause>`: "set the sticky flag of that cause ... and set `hx_phase <- SKIP`" (00_scope.md section 6). -/
def raiseCause (c : StickyCause) (s : State) : State :=
  match c with
  | .badDigit => { s with hxBad := true, hxPhase := .skip }
  | .overrun => { s with hxOvf := true, hxPhase := .skip }

/-- The high digit is held: "`hx_nib <- v; hx_phase <- LO`" (R84). -/
def holdNibble (v : Nibble) (s : State) : State := { s with hxNib := v, hxPhase := .lo }

/-- The four writes of `commit(b)` (R85). -/
def commitByte (b : Byte) (s : State) : State :=
  { s with
    hxRb := Memory.write s.hxRb s.hxN.toNat b
    hxSum := s.hxSum + b
    hxN := s.hxN + 1
    hxPhase := .hi }

/-- `commit(b)` (R85). An index outside the buffer does not exist (R30). Log 10. -/
def commit (b : Byte) (s : State) : StepResult :=
  if s.hxN.toNat < Config.hexCap then .next (commitByte b s) else .fault .recordIndexOutOfRange

/-- `hx_digit(v)` (R84). -/
def hxDigit (v : Nibble) (s : State) : StepResult :=
  match s.hxPhase with
  | .seek => .next s
  | .hi =>
    if s.hxN.toNat < Config.hexCap then .next (holdNibble v s) else .next (raiseCause .overrun s)
  | .lo => commit (byteOfPair s.hxNib v) s
  | .skip => .next s

/-- What a character that is no hex digit and no terminator does after the marker (R81, R87). -/
def hxNonDigit (s : State) : State := raiseCause .badDigit s

/-- The end of a line: the verdict from the state before, then back to the line-start state (R88, R128). -/
def hxEndLine (s : State) : State :=
  { emit (.verdict (verdictOf s)) s with hxPhase := .seek, hxBad := false, hxOvf := false }

/-- Reset (R135): every piece of the block's state takes the value of R20. What is still to be presented, what was put
out and the count of free values are no state of the block. Log 13. -/
def resetBlock (s : State) : State :=
  { State.reset with draws := s.draws, pending := s.pending, outputs := s.outputs }

/-- The line-start state (R16), reached by changing nothing else; `decode` begins there (R94). -/
def toLineStart (s : State) : State := { s with hxPhase := .seek, hxBad := false, hxOvf := false }

/-- One outcome after another; a stop ends the sequence. -/
def andThen (r : StepResult) (f : State → StepResult) : StepResult :=
  match r with
  | .next s => f s
  | .fault x => .fault x
  | .refused x => .refused x

/-- A number laid out as an instruction stands first among what is presented; a number that is no word of a port is not
presented. Log 15. -/
def presentWord (nbits w : Nat) (s : State) : State :=
  match commandOfWord nbits w with
  | .ok c => present (.op c) s
  | .error _ => s

end Sys2Proof.Machine
end

