-- ==== Sys2Proof/Machine/Crc.lean ====
section
/-! DEFINITION. The CRC unit (40_crc.md): the pure functions and the two operations. -/

namespace Sys2Proof.Machine

/-- `crc_round(a)` (R66): the test on `a` before the shift, the exclusive-or after it. -/
def crcRound (a : Word) : Word :=
  if a.getLsbD 31 then (a <<< 1) ^^^ Config.crcPoly else a <<< 1

/-- `n` rounds. -/
def crcRounds : Nat → Word → Word
  | 0, a => a
  | n + 1, a => crcRounds n (crcRound a)

/-- An input byte as the unit takes it (R7 `CRC_REFIN`). -/
def crcInByte (b : Byte) : Byte := if Config.crcRefIn then b.reverse else b

/-- `a ^ {b, 0x000000}` (R65). -/
def crcFold (a : Word) (b : Byte) : Word := a ^^^ (crcInByte b ++ 0#24)

/-- `crc_step(a, b)`: the fold, then eight rounds (R65). -/
def crcStep (a : Word) (b : Byte) : Word := crcRounds 8 (crcFold a b)

/-- `crc_out` of an accumulator: "the accumulator itself, not its complement and not its bit reversal" (R69; R7
`CRC_REFOUT`, `CRC_XOROUT`). -/
def crcResult (a : Word) : Word := (if Config.crcRefOut then a.reverse else a) ^^^ Config.crcXorOut

/-- `crc32(data, length, seed)` (R70). -/
def crc32 : List Byte → Word → Word
  | [], a => a
  | b :: bs, a => crc32 bs (crcStep a b)

/-- `CRC.INIT s` (R67). -/
def execCrcInit (seed : Word) (s : State) : StepResult := .next (markSpecified (writeAcc seed s))

/-- `CRC.BYTE b` (R68). On an unspecified accumulator it folds into a free value (R138, log 4). -/
def execCrcByte (b : Byte) (s : State) : StepResult :=
  let (a, t) := readAcc s
  .next (writeAcc (crcStep a b) t)

end Sys2Proof.Machine
end

