-- ==== Sys2Proof/Machine/Hex.lean ====
section
/-! DEFINITION. The operations of the HEX unit (41_hex_decoder.md section 2), one definition for each row of R59. -/

namespace Sys2Proof.Machine

/-- `HX.SOR` (R81). -/
def execHxSor (s : State) : StepResult :=
  match s.hxPhase with
  | .seek => .next (startRecord s)
  | .hi => .next (hxNonDigit s)
  | .lo => .next (hxNonDigit s)
  | .skip => .next s

/-- `HX.EOL`, LF (R88). -/
def execHxEolLf (s : State) : StepResult := .next (hxEndLine s)

/-- `HX.EOL`, CR (R88: "LF and CR act identically"). -/
def execHxEolCr (s : State) : StepResult := .next (hxEndLine s)

/-- `HX.DEC`, digits 0 to 7 (R82). -/
def execHxDec07 (v : BitVec 3) (s : State) : StepResult := hxDigit (nibDec (codeDec07 v)) s

/-- `HX.DEC`, digits 8 and 9 (R82). -/
def execHxDec89 (v : Bit) (s : State) : StepResult := hxDigit (nibDec (codeDec89 v)) s

/-- `HX.ALPHA`, `A` or `a` (R83). -/
def execHxAlphaA (k : Bit) (s : State) : StepResult := hxDigit (nibAlpha (codeAlphaA k)) s

/-- `HX.ALPHA`, `B`, `C`, `b` or `c` (R83). -/
def execHxAlphaBC (k v : Bit) (s : State) : StepResult := hxDigit (nibAlpha (codeAlphaBC k v)) s

/-- `HX.ALPHA`, `D`, `E`, `d` or `e` (R83). -/
def execHxAlphaDE (k v : Bit) (s : State) : StepResult := hxDigit (nibAlpha (codeAlphaDE k v)) s

/-- `HX.ALPHA`, `F` or `f` (R83). -/
def execHxAlphaF (k : Bit) (s : State) : StepResult := hxDigit (nibAlpha (codeAlphaF k)) s

/-- `HX.OTHER` (R87). -/
def execHxOther (s : State) : StepResult :=
  match s.hxPhase with
  | .seek => .next s
  | .hi => .next (hxNonDigit s)
  | .lo => .next (hxNonDigit s)
  | .skip => .next s

end Sys2Proof.Machine
end

