-- ==== Sys2Proof/Machine/Dispatch.lean ====
section
/-! DEFINITION. One arm for each operation. -/

namespace Sys2Proof.Machine

/-- What an operation does (40_crc.md R67, R68; 41_hex_decoder.md R80). -/
def exec (i : Instr) (s : State) : Host.Outcome State Fault Refusal :=
  match i with
  | .crcInit seed => Sys2Proof.Machine.execCrcInit seed s
  | .crcByte _ b => Sys2Proof.Machine.execCrcByte b s
  | .hxSor => Sys2Proof.Machine.execHxSor s
  | .hxEolLf => Sys2Proof.Machine.execHxEolLf s
  | .hxEolCr => Sys2Proof.Machine.execHxEolCr s
  | .hxDec07 v => Sys2Proof.Machine.execHxDec07 v s
  | .hxDec89 v => Sys2Proof.Machine.execHxDec89 v s
  | .hxAlphaA k => Sys2Proof.Machine.execHxAlphaA k s
  | .hxAlphaBC k v => Sys2Proof.Machine.execHxAlphaBC k v s
  | .hxAlphaDE k v => Sys2Proof.Machine.execHxAlphaDE k v s
  | .hxAlphaF k => Sys2Proof.Machine.execHxAlphaF k s
  | .hxOther _ => Sys2Proof.Machine.execHxOther s

end Sys2Proof.Machine
end

