-- ==== Sys2Proof/Machine/Ports.lean ====
section
/-! DEFINITION. The readable outputs (10_state.md R21, 20_memory.md R32, R33, 41_hex_decoder.md R93). A read returns its
value as an entry of the trace and changes no state of the block (R37); where the spec fixes no value it returns a free
one, fresh at every read (R33, R138). Logs 7, 8, 9, 20, 21. -/

namespace Sys2Proof.Machine

/-- `hx_rb[i]` where `rb_read(i)` returns it: below the count, in every phase (R21, R33). That it does so from a marker to
the end of its line too, where R137 can be read otherwise, is DEDUCED: log 21. -/
def rbByte (s : State) (i : Nat) : Option Byte :=
  if i < s.hxN.toNat then Memory.read s.hxRb i else none

/-- `hx_rb[i]` where the spec fixes what a record view shows of it: as for `rb_read`, but in phase SEEK only, since a view
read after the next marker is late (R137, U3). Log 21. -/
def viewByte (s : State) (i : Nat) : Option Byte :=
  if s.hxPhase = .seek then rbByte s i else none

/-- A byte the spec may or may not fix: that byte, or a free one. -/
def fixedOrFree (b : Option Byte) (s : State) : Byte × State :=
  match b with
  | some b => (b, s)
  | none => drawByte s

/-- `MemRead(i, 1)` as the read port gives it (R32, R33). -/
def readRb (i : Nat) (s : State) : Byte × State := fixedOrFree (rbByte s i) s

/-- A record view of one byte, `rec_count` or `rec_type` (R93). -/
def readView (i : Nat) (s : State) : Byte × State := fixedOrFree (viewByte s i) s

/-- `rec_payload(k)` where R93 fixes it: `k < rec_count` and index `4 + k` decoded. Log 9. -/
def payloadByte (s : State) (k : Nat) : Option Byte :=
  match viewByte s 0 with
  | some count => if k < count.toNat then viewByte s (4 + k) else none
  | none => none

/-- `rec_checksum` where R93 fixes it: the last byte decoded, if any was. Log 9. -/
def checksumView (s : State) : Option Byte :=
  if s.hxN = 0#9 then none else viewByte s (s.hxN.toNat - 1)

/-- `crc_out` (R69, R138). -/
def readCrcOut (s : State) : Word × State :=
  let (a, t) := readAcc s
  (crcResult a, t)

/-- `rec_addr` where R93 fixes it, two one-byte reads joined (R37): "only where every index it reads is below
`nbytes`", so from three bytes on. -/
def addressView (s : State) : Option Half :=
  match viewByte s 1, viewByte s 2 with
  | some byte1, some byte2 => some (addressOf byte1 byte2)
  | _, _ => none

/-- `rec_addr` (R93, R139). With fewer than three bytes the whole view is one free value; that this holds for two bytes
as well, where R21, R33 and U2 speak byte by byte, is DEDUCED: log 20. -/
def readRecAddr (s : State) : Half × State :=
  match addressView s with
  | some address => (address, s)
  | none => drawHalf s

/-- The reading of an output. An index the read port does not accept is refused (R32). -/
def readPort (p : Port) (s : State) : StepResult :=
  match p with
  | .crcOut => let (v, t) := readCrcOut s; .next (emit (.crcOut v) t)
  | .nbytes => .next (emit (.nbytes s.hxN) s)
  | .rbRead i =>
    if i.toNat < Config.hexCap then
      let (v, t) := readRb i.toNat s
      .next (emit (.rbRead i v) t)
    else .refused (.rbIndexNotAccepted i)
  | .recCount => let (v, t) := readView 0 s; .next (emit (.recCount v) t)
  | .recAddr => let (v, t) := readRecAddr s; .next (emit (.recAddr v) t)
  | .recType => let (v, t) := readView 3 s; .next (emit (.recType v) t)
  | .recPayload k =>
    let (v, t) := fixedOrFree (payloadByte s k.toNat) s
    .next (emit (.recPayload k v) t)
  | .recChecksum =>
    let (v, t) := fixedOrFree (checksumView s) s
    .next (emit (.recChecksum v) t)

end Sys2Proof.Machine
end

