-- ==== Sys2Proof/Machine/Step.lean ====
section
/-! DEFINITION. One step: the next thing that is presented is performed (00_scope.md R6). -/

namespace Sys2Proof.Machine

/-- One step of the block: the operation presented next (R6), a read (R21) or reset (R135); with nothing presented,
nothing happens (R148, log 2). -/
def step (s : State) : Host.Outcome State Fault Refusal :=
  match takeEvent s with
  | none => .next s
  | some (.op c, t) => exec (decode c) t
  | some (.read p, t) => readPort p t
  | some (.reset, t) => .next (resetBlock t)

/-- The state in which the word `w` is presented next, before what else is pending. Logs 1, 15. -/
def State.withFetchWord (s : State) (nbits w : Nat) : State := presentWord nbits w s

end Sys2Proof.Machine
end

