-- ==== Sys2Proof/Machine/Composite.lean ====
section
/-! DEFINITION. The pseudo-operations (30_encoding.md R57) and the composites `crc32` (40_crc.md R70) and `decode(line)`
(41_hex_decoder.md R94) as sequences of operations; the record and its two formats (30_encoding.md R47, R51). -/

namespace Sys2Proof.Machine

/-- Operations performed in order (00_scope.md R6). -/
def performAll : List Instr → State → StepResult
  | [], s => .next s
  | i :: is, s => andThen (exec i s) (performAll is)

/-- `CRC.BYTES [b0, ..., b(k-1)]` (R57); the ignored bits are zero. -/
def crcBytes (data : List Byte) : List Instr := data.map (Instr.crcByte 0#24)

/-- The operations of `crc32(data, length, seed)` before the read of `crc_out` (R57, R70). -/
def crc32Ops (data : List Byte) (seed : Word) : List Instr := .crcInit seed :: crcBytes data

/-- `HX.TEXT "s"` (R57). -/
def hxText (line : List Byte) : List Instr := line.map decodeHx

/-- `HX.LINE "s"` (R57). -/
def hxLine (line : List Byte) : List Instr := hxText line ++ [decodeHx Config.hxLfCode]

/-- The line holds neither LF nor CR (R57, R94). -/
def isLine (line : List Byte) : Bool := line.all fun c => c != Config.hxLfCode && c != Config.hxCrCode

/-- `HexRecord` (00_scope.md section 7, R94). -/
structure HexRecord where
  byteCount : Byte
  address : Half
  recordType : Byte
  payload : List Byte
deriving DecidableEq, Repr

/-- `rec_payload(k)` for `n` values of `k` from `k` on (R93). -/
def readPayload : Nat → Nat → State → List Byte × State
  | 0, _, s => ([], s)
  | n + 1, k, s =>
    let (b, t) := fixedOrFree (payloadByte s k) s
    let (bs, u) := readPayload n (k + 1) t
    (b :: bs, u)

/-- The record as the views give it (R93, R94). -/
def readRecord (s : State) : HexRecord × State :=
  let (count, s1) := readView 0 s
  let (address, s2) := readRecAddr s1
  let (kind, s3) := readView 3 s2
  let (payload, s4) := readPayload count.toNat 0 s3
  ({ byteCount := count, address := address, recordType := kind, payload := payload }, s4)

/-- The verdict put out last, if the last thing put out was one. -/
def lastVerdict (s : State) : Option Verdict :=
  match s.outputs.getLast? with
  | some (.verdict v) => some v
  | _ => none

/-- `decode(line)` (R94): the record of an accepted line or the cause mask of a rejected one, and the state left; none
where the line's operations stop or put out no verdict, which R80 excludes. -/
def decodeLine (line : List Byte) (s : State) : Option (Except (BitVec 5) HexRecord × State) :=
  match performAll (hxLine line) (toLineStart s) with
  | .next t =>
    match lastVerdict t with
    | some v =>
      if v.valid then
        let (r, u) := readRecord t
        some (.ok r, u)
      else some (.error v.err, t)
    | none => none
  | _ => none

/-- The first four bytes of a record and its payload (R51). -/
def recordBody (r : HexRecord) : List Byte :=
  [r.byteCount, r.address.extractLsb' 8 8, r.address.extractLsb' 0 8, r.recordType] ++ r.payload

/-- Format `REC-BYTES` (R51): the body and the sender's checksum byte (R58). -/
def recordBytes (r : HexRecord) : List Byte := recordBody r ++ [checksumByte (recordBody r)]

/-- The record states its own payload's length, "`BB` data bytes" (R47). -/
def HexRecord.wellFormed (r : HexRecord) : Bool := r.payload.length == r.byteCount.toNat

/-- The character of a hex digit, with capital or small letters (R48, R49). -/
def hexChar (small : Bool) (v : Nibble) : Byte :=
  if v < 10#4 then 0x30#8 + v.zeroExtend 8
  else if small then 0x57#8 + v.zeroExtend 8
  else 0x37#8 + v.zeroExtend 8

/-- The hex pair of a byte, high digit first (R35, R50). -/
def hexPair (small : Bool) (b : Byte) : List Byte :=
  [hexChar small (b.extractLsb' 4 4), hexChar small (b.extractLsb' 0 4)]

/-- Format `REC-LINE` (R47), terminator not included. -/
def recordLine (small : Bool) (r : HexRecord) : List Byte :=
  Config.hxSorCode :: (recordBytes r).flatMap (hexPair small)

end Sys2Proof.Machine
end

