-- ==== Sys2Proof/Machine/LineProcedure.lean ====
section
/-! DEFINITION. PFL's procedure on a whole line, as 41_hex_decoder.md R95 restates its steps 1 to 3 and R89, R91, R92
its steps 4 and 5. It knows no phases and no states: it is what the character-at-a-time operations are compared with. -/

namespace Sys2Proof.Machine

/-- The characters after the first `:` (R95's position p), if there is one. -/
def afterMarker : List Byte → Option (List Byte)
  | [] => none
  | c :: cs => if c = Config.hxSorCode then some cs else afterMarker cs

/-- The bytes of the hex pairs at the front, at most so many (R95: the first 2k characters, decoded). -/
def pairBytes : Nat → List Byte → List Byte
  | 0, _ => []
  | _ + 1, [] => []
  | _ + 1, [_] => []
  | n + 1, c1 :: c2 :: cs =>
    match nib c1, nib c2 with
    | some high, some low => byteOfPair high low :: pairBytes n cs
    | _, _ => []

/-- The bytes a line delivers (R95). -/
def lineBytes (cs : List Byte) : List Byte := pairBytes Config.hexCap cs

/-- What follows the decoded pairs. -/
def lineRest (cs : List Byte) : List Byte := cs.drop (2 * (lineBytes cs).length)

/-- Why the consumption of bytes stopped (R95). -/
inductive Stop where
  /-- The line ends right after a pair. -/
  | clean
  /-- The buffer is full and a further hex digit comes. -/
  | capacity
  /-- A character that is no hex digit comes where one is expected. -/
  | malformed
  /-- The line ends with one digit of a pair. -/
  | heldDigit (v : Nibble)
deriving DecidableEq, Repr

/-- Why consumption stopped, from what follows the decoded pairs (R95). -/
def stopOf (full : Bool) (rest : List Byte) : Stop :=
  match rest with
  | [] => .clean
  | c :: cs =>
    match nib c with
    | none => .malformed
    | some v =>
      if full then .capacity
      else
        match cs with
        | [] => .heldDigit v
        | _ :: _ => .malformed

/-- Why the consumption of a line's bytes stopped, from the characters after the marker. -/
def lineStop (cs : List Byte) : Stop :=
  stopOf ((lineBytes cs).length == Config.hexCap) (lineRest cs)

/-- The phase in which a stop leaves the unit (R95). -/
def stopPhase : Stop → Phase
  | .clean => .hi
  | .capacity => .skip
  | .malformed => .skip
  | .heldDigit _ => .lo

/-- Whether a stop is a malformed hex digit (R89, R123). -/
def stopIsBadDigit : Stop → Bool
  | .clean => false
  | .capacity => false
  | .malformed => true
  | .heldDigit _ => true

/-- The cause mask of a line without its terminator (R89 with R95). -/
def lineErr (line : List Byte) : BitVec 5 :=
  match afterMarker line with
  | none => causeMask .noStart true
  | some cs =>
    causeMask .badDigit (stopIsBadDigit (lineStop cs)) ||| causeMask .overrun (lineStop cs == .capacity)
      ||| causeMask .empty (lineBytes cs == [])
      ||| causeMask .checksum (lineBytes cs != [] && sumBytes (lineBytes cs) != 0#8)

/-- The verdict on a line without its terminator (R90 with R95), under a stop policy. -/
def lineVerdict (p : Config.StopPolicy) (line : List Byte) : Verdict where
  valid := validOf p (lineErr line)
  err := lineErr line
  nbytes :=
    match afterMarker line with
    | none => 0#9
    | some cs => BitVec.ofNat 9 (lineBytes cs).length

end Sys2Proof.Machine
end

