-- ==== Sys2Proof/Safety.lean ====
section
/-! DEFINITION. What holds of every state a run reaches (10_state.md R22), when a step is safe, and which states differ
only where the spec leaves a value open. -/

namespace Sys2Proof.Machine

/-- The line-start state (R16). -/
abbrev LineStart (s : State) : Prop := s.hxPhase = .seek ∧ s.hxBad = false ∧ s.hxOvf = false

/-- R22(a). -/
abbrev CountInRange (s : State) : Prop := s.hxN.toNat ≤ Config.hexCap

/-- R22(b). -/
abbrev SumAgrees (s : State) : Prop := s.hxSum = Memory.sumBelow s.hxRb s.hxN.toNat

/-- R22(c). -/
abbrev FlagsOnlyInSkip (s : State) : Prop :=
  (s.hxBad = true → s.hxPhase = .skip) ∧ (s.hxOvf = true → s.hxPhase = .skip)
    ∧ ¬(s.hxBad = true ∧ s.hxOvf = true)

/-- R22(d). -/
abbrev OverrunOnlyWhenFull (s : State) : Prop := s.hxOvf = true → s.hxN.toNat = Config.hexCap

/-- R22(e), beside (c): in SKIP one of the flags is set. -/
abbrev SkipHasFlag (s : State) : Prop := s.hxPhase = .skip → s.hxBad = true ∨ s.hxOvf = true

/-- R85: while a digit is held, "`hx_n < HEX_CAP` is guaranteed". -/
abbrev HeldDigitFits (s : State) : Prop := s.hxPhase = .lo → s.hxN.toNat < Config.hexCap

/-- R22(f), in the part that one state shows: every index below `hx_n` holds a byte. -/
abbrev BytesHeld (s : State) : Prop := ∀ i < s.hxN.toNat, (Memory.read s.hxRb i).isSome = true

/-- The invariant of every reachable state (R22, R85) and the canonical form of the memory. -/
abbrev BlockInv (s : State) : Prop :=
  CountInRange s ∧ SumAgrees s ∧ FlagsOnlyInSkip s ∧ OverrunOnlyWhenFull s ∧ SkipHasFlag s ∧ HeldDigitFits s
    ∧ BytesHeld s ∧ Memory.wf s.hxRb

/-- The step does not fault. -/
def FaultFree (r : StepResult) : Prop := ∀ f, r ≠ .fault f

/-- The two units of the block (00_scope.md R1). -/
inductive BlockUnit where
  | crc
  | hex
deriving DecidableEq, Repr

/-- The unit that performs an operation (R4). -/
def unitOf : Instr → BlockUnit
  | .crcInit _ => .crc
  | .crcByte _ _ => .crc
  | .hxSor => .hex
  | .hxEolLf => .hex
  | .hxEolCr => .hex
  | .hxDec07 _ => .hex
  | .hxDec89 _ => .hex
  | .hxAlphaA _ => .hex
  | .hxAlphaBC _ _ => .hex
  | .hxAlphaDE _ _ => .hex
  | .hxAlphaF _ => .hex
  | .hxOther _ => .hex

/-- The class of an operation of the HEX unit (R48, R59). -/
def classOf : Instr → Option CharClass
  | .crcInit _ => none
  | .crcByte _ _ => none
  | .hxSor => some .sor
  | .hxEolLf => some .eol
  | .hxEolCr => some .eol
  | .hxDec07 _ => some .dec
  | .hxDec89 _ => some .dec
  | .hxAlphaA _ => some .alpha
  | .hxAlphaBC _ _ => some .alpha
  | .hxAlphaDE _ _ => some .alpha
  | .hxAlphaF _ => some .alpha
  | .hxOther _ => some .other

/-- The operation is a hex digit, `HX.DEC` or `HX.ALPHA`. -/
def isDigitOp (i : Instr) : Bool := classOf i == some .dec || classOf i == some .alpha

/-- The operation is a terminator, `HX.EOL`. -/
def isEolOp (i : Instr) : Bool := classOf i == some .eol

/-- Two states agree on everything the spec fixes: they may differ in `crc_acc` before `CRC.INIT` (R20, R138), in
`hx_nib` outside LO (R12), and in the bytes of the record buffer at or above `hx_n` (R33). -/
def SameSpecified (s t : State) : Prop :=
  s.crcSpec = t.crcSpec ∧ (s.crcSpec = true → s.crcAcc = t.crcAcc) ∧ s.hxPhase = t.hxPhase
    ∧ (s.hxPhase = .lo → s.hxNib = t.hxNib) ∧ s.hxN = t.hxN ∧ s.hxSum = t.hxSum ∧ s.hxBad = t.hxBad
    ∧ s.hxOvf = t.hxOvf ∧ (∀ i < s.hxN.toNat, Memory.read s.hxRb i = Memory.read t.hxRb i)
    ∧ s.draws = t.draws ∧ s.pending = t.pending ∧ s.outputs = t.outputs

/-- Two outcomes agree on everything the spec fixes. -/
def SameSpecifiedResult (r q : StepResult) : Prop :=
  match r, q with
  | .next s, .next t => SameSpecified s t
  | .fault f, .fault g => f = g
  | .refused x, .refused y => x = y
  | _, _ => False

end Sys2Proof.Machine
end

