-- ==== Sys2Proof/WellFormed.lean ====
section
/-! DEFINITION. Which terms of `Instr` stand for an operation. Every operand has the width of its field; the one
check left is that `HX.OTHER` is the default row, "all codes not matched by rows 1-9" (30_encoding.md R59). -/

namespace Sys2Proof

/-- No row 1 to 9 of R59 takes the code. -/
def isOtherCode (c : Byte) : Bool := hxRows.all fun r => !r.takes c

/-- The operation can be presented. -/
def Instr.wellFormed : Instr → Bool
  | .crcInit _ => true
  | .crcByte _ _ => true
  | .hxSor => true
  | .hxEolLf => true
  | .hxEolCr => true
  | .hxDec07 _ => true
  | .hxDec89 _ => true
  | .hxAlphaA _ => true
  | .hxAlphaBC _ _ => true
  | .hxAlphaDE _ _ => true
  | .hxAlphaF _ => true
  | .hxOther c => isOtherCode c

end Sys2Proof
end

