-- ==== Sys2Proof/Certificates/Slice0/Obligations.lean ====
section
/-! DEFINITION. What is claimed of the block, each statement from the rules of spec/ that its docstring names. Where a
clause rests on a choice of the model and not on a rule, the docstring says so and names the log entry. -/

open Sys2Proof Sys2Proof.Machine

/-! ## Encodings -/

/-- R46, R54, R59: an operation that can be presented is read back from its own words, and every word a port takes is the
word of the operation it is read as. -/
def Obligations.EncodingsAndOperationsCorrespond : Prop :=
  (∀ i : Instr, i.wellFormed = true → decode (encode i) = i)
    ∧ ∀ c : Command, (decode c).wellFormed = true ∧ encode (decode c) = c

/-- R46: bit 32 of a command word tells the two operations apart, bits 31:0 are the seed, bits 7:0 the data byte; every
command word is one of the two; bits 31:8 of a `CRC.BYTE` are ignored. -/
def Obligations.CrcCommandWordFields : Prop :=
  (∀ seed : Word, decode (.crc (0#1 ++ seed)) = .crcInit seed)
    ∧ (∀ (x : BitVec 24) (b : Byte), decode (.crc (1#1 ++ x ++ b)) = .crcByte x b)
    ∧ (∀ cmd : CrcCmd,
        (cmd.getLsbD 32 = false ∧ decode (.crc cmd) = .crcInit (cmd.extractLsb' 0 32))
          ∨ (cmd.getLsbD 32 = true ∧ decode (.crc cmd) = .crcByte (cmd.extractLsb' 8 24) (cmd.extractLsb' 0 8)))
    ∧ ∀ (x y : BitVec 24) (b : Byte) (s : State), exec (.crcByte x b) s = exec (.crcByte y b) s

/-- R59: what each row takes, that rows 1 to 9 exclude each other, and that row 10 takes the rest. -/
def Obligations.CharacterRowsSelectOperations : Prop :=
  (hxRows.Pairwise fun r q => ∀ c : Byte, ¬(r.takes c = true ∧ q.takes c = true))
    ∧ ∀ c : Byte,
      (c &&& 0xFF#8 = 0x3A#8 → decode (.hx c) = .hxSor)
        ∧ (c &&& 0xFF#8 = 0x0A#8 → decode (.hx c) = .hxEolLf)
        ∧ (c &&& 0xFF#8 = 0x0D#8 → decode (.hx c) = .hxEolCr)
        ∧ (c &&& 0xF8#8 = 0x30#8 → decode (.hx c) = .hxDec07 (c.extractLsb' 0 3))
        ∧ (c &&& 0xFE#8 = 0x38#8 → decode (.hx c) = .hxDec89 (c.extractLsb' 0 1))
        ∧ (c &&& 0xDF#8 = 0x41#8 → decode (.hx c) = .hxAlphaA (c.extractLsb' 5 1))
        ∧ (c &&& 0xDE#8 = 0x42#8 → decode (.hx c) = .hxAlphaBC (c.extractLsb' 5 1) (c.extractLsb' 0 1))
        ∧ (c &&& 0xDE#8 = 0x44#8 → decode (.hx c) = .hxAlphaDE (c.extractLsb' 5 1) (c.extractLsb' 0 1))
        ∧ (c &&& 0xDF#8 = 0x46#8 → decode (.hx c) = .hxAlphaF (c.extractLsb' 5 1))
        ∧ (isOtherCode c = true → decode (.hx c) = .hxOther c)

/-- R48: the class of every one of the 256 codes, by the ranges of the rule. -/
def Obligations.CharacterClassesByRange : Prop :=
  ∀ c : Byte,
    (classOf (decode (.hx c)) = some .sor ↔ c = 0x3A#8)
      ∧ (classOf (decode (.hx c)) = some .eol ↔ c = 0x0A#8 ∨ c = 0x0D#8)
      ∧ (classOf (decode (.hx c)) = some .dec ↔ 0x30 ≤ c.toNat ∧ c.toNat ≤ 0x39)
      ∧ (classOf (decode (.hx c)) = some .alpha
          ↔ (0x41 ≤ c.toNat ∧ c.toNat ≤ 0x46) ∨ (0x61 ≤ c.toNat ∧ c.toNat ≤ 0x66))
      ∧ (classOf (decode (.hx c)) = some .other
          ↔ c.toNat ≤ 0x09 ∨ c.toNat = 0x0B ∨ c.toNat = 0x0C ∨ (0x0E ≤ c.toNat ∧ c.toNat ≤ 0x2F)
            ∨ (0x3B ≤ c.toNat ∧ c.toNat ≤ 0x40) ∨ (0x47 ≤ c.toNat ∧ c.toNat ≤ 0x60) ∨ 0x67 ≤ c.toNat)

/-- 95_test_vectors.md, words written out from R46 and R59: the decoder reads the operations they stand for. That a
33-bit command word is handed over as five bytes, as a number of 40 bits, is the model's choice (log 15). -/
def Obligations.WrittenWordsDecode : Prop :=
  decodeTableWord 40 0x0FFFFFFFF = some (.crcInit 0xFFFFFFFF#32)
    ∧ decodeTableWord 40 0x012345678 = some (.crcInit 0x12345678#32)
    ∧ decodeTableWord 40 0x1ABCDEF31 = some (.crcByte 0xABCDEF#24 0x31#8)
    ∧ decodeTableWord 8 0x3A = some .hxSor
    ∧ decodeTableWord 8 0x37 = some (.hxDec07 7#3)
    ∧ decodeTableWord 8 0x45 = some (.hxAlphaDE 0#1 1#1)
    ∧ decodeTableWord 8 0x66 = some (.hxAlphaF 1#1)
    ∧ decodeTableWord 8 0xBA = some (.hxOther 0xBA#8)

/-- R49: the nibble of every hex digit, both cases of a letter alike, and of no other character. -/
def Obligations.NibbleOfCharacter : Prop :=
  ∀ c : Byte,
    (0x30 ≤ c.toNat ∧ c.toNat ≤ 0x39 → nib c = some (BitVec.ofNat 4 (c.toNat - 0x30)))
      ∧ (0x41 ≤ c.toNat ∧ c.toNat ≤ 0x46 → nib c = some (BitVec.ofNat 4 (c.toNat - 0x41 + 10)))
      ∧ (0x61 ≤ c.toNat ∧ c.toNat ≤ 0x66 → nib c = some (BitVec.ofNat 4 (c.toNat - 0x61 + 10)))
      ∧ ((nib c).isSome = true ↔ charClass c = .dec ∨ charClass c = .alpha)

/-! ## The CRC unit -/

/-- R66: one round, in both forms of the rule; it is a bijection whose bit 0 is the bit shifted out; the rule's
examples. -/
def Obligations.CrcRoundShiftsThenFolds : Prop :=
  (∀ a : Word,
      (a.getLsbD 31 = true → crcRound a = (a.extractLsb' 0 31 ++ 0#1) ^^^ 0x04C11DB7#32)
        ∧ (a.getLsbD 31 = false → crcRound a = a.extractLsb' 0 31 ++ 0#1)
        ∧ crcRound a = (a.extractLsb' 0 31 ++ 0#1) ^^^ (0x04C11DB7#32 &&& BitVec.fill 32 (a.getLsbD 31))
        ∧ (crcRound a).getLsbD 0 = a.getLsbD 31)
    ∧ Function.Bijective crcRound
    ∧ crcRound 0x80000000#32 = 0x04C11DB7#32
    ∧ crcRound 0x40000000#32 = 0x80000000#32
    ∧ crcRound 0xFFFFFFFF#32 = 0xFB3EE249#32
    ∧ crcRound 0#32 = 0#32

/-- R65: the fold into the top byte and exactly eight rounds; for each byte a bijection of accumulators; the rule's
example. -/
def Obligations.CrcStepFoldsAndRounds : Prop :=
  (∀ (a : Word) (b : Byte), crcStep a b = crcRound^[8] (a ^^^ (b ++ 0x000000#24)))
    ∧ (∀ b : Byte, Function.Bijective fun a => crcStep a b)
    ∧ crcStep 0#32 0x01#8 = 0x04C11DB7#32

/-- R67: `CRC.INIT` loads the seed and changes nothing else of the block; `crc_out` then shows the seed. That the
accumulator is specified from then on is the model's flag `crcSpec` (log 4). -/
def Obligations.CrcInitLoadsSeed : Prop :=
  ∀ (seed : Word) (s : State),
    decode (.crc (0#1 ++ seed)) = .crcInit seed
      ∧ exec (.crcInit seed) s = .next { s with crcAcc := seed, crcSpec := true }
      ∧ readCrcOut { s with crcAcc := seed, crcSpec := true } = (seed, { s with crcAcc := seed, crcSpec := true })

/-- R68 and R138: `CRC.BYTE` replaces the accumulator by `crc_step` of it and changes nothing else. Before the first
`CRC.INIT` the accumulator is a free value, the model's choice between the treatments that R138 and U1 allow (log 4). -/
def Obligations.CrcByteFoldsOneByte : Prop :=
  ∀ (x : BitVec 24) (b : Byte) (s : State),
    (s.crcSpec = true → exec (.crcByte x b) s = .next { s with crcAcc := crcStep s.crcAcc b })
      ∧ (s.crcSpec = false →
          exec (.crcByte x b) s
            = .next { s with crcAcc := crcStep (Config.unspecWord s.draws) b, draws := s.draws + 1 })

/-- R70: the operations of `crc32(data, length, seed)` leave in the accumulator, and show at `crc_out`, the fold of
`crc_step` over the bytes in order, from any state; the empty sequence gives the seed; the function is incremental. -/
def Obligations.Crc32IsFoldOfSteps : Prop :=
  (∀ (data : List Byte) (seed : Word) (s : State),
      performAll (crc32Ops data seed) s = .next { s with crcAcc := data.foldl crcStep seed, crcSpec := true })
    ∧ (∀ (data : List Byte) (seed : Word) (s : State),
        readPort .crcOut { s with crcAcc := data.foldl crcStep seed, crcSpec := true }
          = .next
              { s with
                crcAcc := data.foldl crcStep seed
                crcSpec := true
                outputs := s.outputs ++ [.crcOut (crc32 data seed)] })
    ∧ (∀ seed : Word, crc32 [] seed = seed)
    ∧ (∀ (x y : List Byte) (seed : Word), crc32 (x ++ y) seed = crc32 y (crc32 x seed))
    ∧ crc32 [0x31#8, 0x32#8, 0x33#8, 0x34#8, 0x35#8, 0x36#8, 0x37#8, 0x38#8, 0x39#8] 0xFFFFFFFF#32 = 0x0376E6E7#32

/-- R71(a): linearity over exclusive-or. -/
def Obligations.CrcStepIsLinear : Prop :=
  (∀ (a a' : Word) (b b' : Byte), crcStep (a ^^^ a') (b ^^^ b') = crcStep a b ^^^ crcStep a' b')
    ∧ (∀ (a : Word) (b : Byte), crcStep a b = crcStep a 0#8 ^^^ crcStep 0#32 b)
    ∧ crcStep 0#32 0#8 = 0#32

/-- R71(b), (c): the table form and the bit-serial form. -/
def Obligations.CrcStepTableAndSerialForms : Prop :=
  (∀ (a : Word) (b : Byte), crcStep a b = (a <<< 8) ^^^ crcStep 0#32 (a.extractLsb' 24 8 ^^^ b))
    ∧ ∀ (a : Word) (b : Byte),
        crcStep a b
          = [7, 6, 5, 4, 3, 2, 1, 0].foldl
              (fun (acc : Word) (j : Nat) => (acc <<< 1) ^^^ (if acc.getLsbD 31 ^^ b.getLsbD j then 0x04C11DB7#32 else 0#32)) a

/-- A vector read as a polynomial over GF(2), bit i the coefficient of x^i (R71(d)). -/
noncomputable def Sys2Proof.polynomialOf {w : Nat} (v : BitVec w) : Polynomial (ZMod 2) :=
  ∑ i ∈ Finset.range w, if v.getLsbD i then Polynomial.X ^ i else 0

/-- G(x) (R71(d)). -/
noncomputable def Sys2Proof.generator : Polynomial (ZMod 2) :=
  [32, 26, 23, 22, 16, 12, 11, 10, 8, 7, 5, 4, 2, 1, 0].foldr (fun i p => Polynomial.X ^ i + p) 0

/-- R71(d): the round is multiplication by x modulo G, the step is `(a(x) x^8 + b(x) x^32) mod G(x)`. -/
def Obligations.CrcStepPolynomialReading : Prop :=
  (∀ a : Word, polynomialOf (crcRound a) = (polynomialOf a * Polynomial.X).modByMonic generator)
    ∧ ∀ (a : Word) (b : Byte),
        polynomialOf (crcStep a b)
          = (polynomialOf a * Polynomial.X ^ 8 + polynomialOf b * Polynomial.X ^ 32).modByMonic generator

/-- R71(e), (f): appending the result, most significant byte first, brings the accumulator to zero; zero bytes leave a
zero accumulator zero. -/
def Obligations.CrcResidueIsZero : Prop :=
  (∀ (data : List Byte) (seed : Word),
      crc32
          (data
            ++ [(crc32 data seed).extractLsb' 24 8, (crc32 data seed).extractLsb' 16 8,
              (crc32 data seed).extractLsb' 8 8, (crc32 data seed).extractLsb' 0 8])
          seed
        = 0#32)
    ∧ ∀ n : Nat, crc32 (List.replicate n 0#8) 0#32 = 0#32

/-- R72: flipping bit j of byte i changes the result by `x^(8*(n-1-i) + j + 32) mod G(x)`, a non-zero value, so the
result always differs. -/
def Obligations.CrcSingleBitFlipChangesResult : Prop :=
  ∀ (data : List Byte) (seed : Word) (i j : Nat) (b : Byte),
    data[i]? = some b → j < 8 →
      ∃ d : Word,
        polynomialOf d = (Polynomial.X ^ (8 * (data.length - 1 - i) + j + 32)).modByMonic generator
          ∧ crc32 (data.set i (b ^^^ (1#8 <<< j))) seed = crc32 data seed ^^^ d
          ∧ d ≠ 0#32
          ∧ crc32 (data.set i (b ^^^ (1#8 <<< j))) seed ≠ crc32 data seed

/-! ## The HEX unit, operation by operation -/

/-- R81: what the marker does in each phase; nothing but the registers named changes, the record buffer among it. -/
def Obligations.MarkerByPhase : Prop :=
  decode (.hx 0x3A#8) = .hxSor
    ∧ ∀ s : State,
      (s.hxPhase = .seek → exec .hxSor s = .next { s with hxN := 0#9, hxSum := 0#8, hxPhase := .hi })
        ∧ (s.hxPhase = .hi → exec .hxSor s = .next { s with hxBad := true, hxPhase := .skip })
        ∧ (s.hxPhase = .lo → exec .hxSor s = .next { s with hxBad := true, hxPhase := .skip })
        ∧ (s.hxPhase = .skip → exec .hxSor s = .next s)

/-- What a hex digit of value v does by phase (R84), with the commit written out (R85): the byte `{hx_nib, v}` goes to
index `hx_n`, no other byte of the buffer changes, the sum and the count go up, and no other register changes. -/
def Sys2Proof.DigitEffect (v : Nibble) (s : State) (r : StepResult) : Prop :=
  (s.hxPhase = .seek → r = .next s)
    ∧ (s.hxPhase = .hi → s.hxN.toNat < 261 → r = .next { s with hxNib := v, hxPhase := .lo })
    ∧ (s.hxPhase = .hi → 261 ≤ s.hxN.toNat → r = .next { s with hxOvf := true, hxPhase := .skip })
    ∧ (s.hxPhase = .lo → s.hxN.toNat < 261 →
        ∃ t : State,
          r = .next t
            ∧ t = { s with hxRb := t.hxRb, hxSum := s.hxSum + (s.hxNib ++ v), hxN := s.hxN + 1, hxPhase := .hi }
            ∧ Memory.read t.hxRb s.hxN.toNat = some (s.hxNib ++ v)
            ∧ ∀ a : Nat, a ≠ s.hxN.toNat → Memory.read t.hxRb a = Memory.read s.hxRb a)
    ∧ (s.hxPhase = .skip → r = .next s)

/-- R82, R84: the decimal digits, with their values. -/
def Obligations.DecimalDigitByPhase : Prop :=
  ∀ s : State,
    (∀ v : BitVec 3, DigitEffect (0#1 ++ v) s (exec (.hxDec07 v) s))
      ∧ ∀ v : Bit, DigitEffect (0b100#3 ++ v) s (exec (.hxDec89 v) s)

/-- R83, R84: the letters A to F, a capital and its small letter alike, with their values 10 to 15. -/
def Obligations.LetterDigitByPhase : Prop :=
  ∀ (s : State) (k : Bit),
    DigitEffect 10#4 s (exec (.hxAlphaA k) s)
      ∧ DigitEffect 11#4 s (exec (.hxAlphaBC k 0#1) s)
      ∧ DigitEffect 12#4 s (exec (.hxAlphaBC k 1#1) s)
      ∧ DigitEffect 13#4 s (exec (.hxAlphaDE k 0#1) s)
      ∧ DigitEffect 14#4 s (exec (.hxAlphaDE k 1#1) s)
      ∧ DigitEffect 15#4 s (exec (.hxAlphaF k) s)

/-- R31, R85, R80, R132: while a held digit fits, which the invariant guarantees, every operation completes; a digit in
LO writes the buffer at one place, the index `hx_n` before it, which is in range, and leaves every other byte; no other
operation writes the buffer. (That `CRC.BYTE` before the first `CRC.INIT` completes, where R68 says that a model faults
or refuses, is the model's choice of a free draw, logs 4 and 7; the canonical form that is kept is the model's form of
the memory, log 6; a state without the premise, which no run reaches, is log 10.) -/
def Obligations.CommitsStayInBuffer : Prop :=
  ∀ (i : Instr) (s : State),
    HeldDigitFits s →
      ∃ t : State,
        exec i s = .next t
          ∧ (isDigitOp i = true → s.hxPhase = .lo →
              s.hxN.toNat < 261
                ∧ t.hxN.toNat = s.hxN.toNat + 1
                ∧ (∃ v : Nibble, Memory.read t.hxRb s.hxN.toNat = some (s.hxNib ++ v))
                ∧ ∀ a : Nat, a ≠ s.hxN.toNat → Memory.read t.hxRb a = Memory.read s.hxRb a)
          ∧ (¬(isDigitOp i = true ∧ s.hxPhase = .lo) → t.hxRb = s.hxRb)
          ∧ (Memory.wf s.hxRb → Memory.wf t.hxRb)

/-- R85, R86: the commit adds the byte modulo 256 and counts it; no operand makes it overflow. -/
def Obligations.CommitAddsModulo256 : Prop :=
  ∀ (b : Byte) (s : State),
    s.hxN.toNat < 261 →
      ∃ t : State,
        commit b s = .next t
          ∧ t.hxSum.toNat = (s.hxSum.toNat + b.toNat) % 256
          ∧ t.hxN.toNat = s.hxN.toNat + 1
          ∧ t.hxPhase = .hi
          ∧ Memory.read t.hxRb s.hxN.toNat = some b
          ∧ Memory.bytesBelow t.hxRb t.hxN.toNat = Memory.bytesBelow s.hxRb s.hxN.toNat ++ [b]

/-- R86: the sum does not depend on the order of the bytes, and an error confined to one byte changes it. -/
def Obligations.SumDetectsSingleByteErrors : Prop :=
  (∀ x y : List Byte, x.Perm y → sumBytes x = sumBytes y)
    ∧ ∀ (x : List Byte) (i : Nat) (b b' : Byte), x[i]? = some b → b' ≠ b → sumBytes (x.set i b') ≠ sumBytes x

/-- R87: what any other character does in each phase. -/
def Obligations.OtherCharacterByPhase : Prop :=
  ∀ (c : Byte) (s : State),
    (s.hxPhase = .seek → exec (.hxOther c) s = .next s)
      ∧ (s.hxPhase = .hi → exec (.hxOther c) s = .next { s with hxBad := true, hxPhase := .skip })
      ∧ (s.hxPhase = .lo → exec (.hxOther c) s = .next { s with hxBad := true, hxPhase := .skip })
      ∧ (s.hxPhase = .skip → exec (.hxOther c) s = .next s)

/-- R88 to R91: the terminator emits one verdict, computed from the state before it, and goes back to the line-start
state; LF and CR alike; nothing else changes. -/
def Obligations.TerminatorEmitsVerdict : Prop :=
  decode (.hx 0x0A#8) = .hxEolLf
    ∧ decode (.hx 0x0D#8) = .hxEolCr
    ∧ ∀ s : State, ∃ (v : Verdict) (t : State),
      t = { s with hxPhase := .seek, hxBad := false, hxOvf := false, outputs := s.outputs ++ [.verdict v] }
        ∧ exec .hxEolLf s = .next t
        ∧ exec .hxEolCr s = .next t
        ∧ (v.err.getLsbD 0 = true ↔ s.hxPhase = .seek)
        ∧ (v.err.getLsbD 1 = true ↔ s.hxBad = true ∨ s.hxPhase = .lo)
        ∧ (v.err.getLsbD 2 = true ↔ s.hxOvf = true)
        ∧ (v.err.getLsbD 3 = true ↔ s.hxPhase ≠ .seek ∧ s.hxN = 0#9)
        ∧ (v.err.getLsbD 4 = true ↔ s.hxPhase ≠ .seek ∧ 1 ≤ s.hxN.toNat ∧ s.hxSum ≠ 0#8)
        ∧ (v.valid = true ↔ v.err = 0#5)
        ∧ (s.hxPhase ≠ .seek → v.nbytes = s.hxN)
        ∧ (s.hxPhase = .seek → v.nbytes = 0#9)

/-- R92: the other stop policy differs in `valid` only, and exactly where bit 1 or 2 of `err` is set and bits 0, 3, 4 are
clear. -/
def Obligations.LenientPolicyDiffersOnStops : Prop :=
  (∀ e : BitVec 5,
      validOf .lenient e = true ↔ e.getLsbD 0 = false ∧ e.getLsbD 3 = false ∧ e.getLsbD 4 = false)
    ∧ ∀ s : State,
      (verdictUnder .lenient s).err = (verdictOf s).err
        ∧ (verdictUnder .lenient s).nbytes = (verdictOf s).nbytes
        ∧ ((verdictUnder .lenient s).valid ≠ (verdictOf s).valid
            ↔ ((errMask s).getLsbD 1 = true ∨ (errMask s).getLsbD 2 = true)
              ∧ (errMask s).getLsbD 0 = false ∧ (errMask s).getLsbD 3 = false ∧ (errMask s).getLsbD 4 = false)

/-- R127: in every state that meets the invariant, the cause mask is one of the nine values of the rule, and a line gives
each of them. -/
def Obligations.NineCauseMasks : Prop :=
  (∀ s : State,
      BlockInv s →
        errMask s ∈ [0x00#5, 0x01#5, 0x02#5, 0x04#5, 0x08#5, 0x10#5, 0x0A#5, 0x12#5, 0x14#5])
    ∧ ∀ m ∈ [0x00#5, 0x01#5, 0x02#5, 0x04#5, 0x08#5, 0x10#5, 0x0A#5, 0x12#5, 0x14#5],
        ∃ line : List Byte, isLine line = true ∧ (lineVerdict .strict line).err = m

/-- R144, R122: two terminators in a row emit two verdicts, the second `NOSTART` with no byte, and the record is still
there. -/
def Obligations.SecondTerminatorIsNoStart : Prop :=
  ∀ (i j : Instr) (s : State),
    isEolOp i = true → isEolOp j = true →
      ∃ (v : Verdict) (t u : State),
        exec i s = .next t
          ∧ t.outputs = s.outputs ++ [.verdict v]
          ∧ exec j t = .next u
          ∧ u = { t with outputs := t.outputs ++ [.verdict { valid := false, err := 0x01#5, nbytes := 0#9 }] }
          ∧ u.hxN = s.hxN
          ∧ u.hxRb = s.hxRb

/-! ## The machine as a whole -/

/-- R20, R135: the values reset gives, in the reset state and after a reset during a run; no verdict is emitted. What is
unspecified after reset is marked so: `crc_acc` by the model's flag (log 4), the record buffer by holding no byte
(log 6). That the pending list and the trace survive a reset is the model's choice (log 13). -/
def Obligations.ResetValues : Prop :=
  (State.reset.hxPhase = .seek ∧ State.reset.hxN = 0#9 ∧ State.reset.hxSum = 0#8 ∧ State.reset.hxBad = false
      ∧ State.reset.hxOvf = false ∧ State.reset.crcSpec = false ∧ ∀ i, Memory.read State.reset.hxRb i = none)
    ∧ ∀ (s : State) (rest : List Event),
      s.pending = .reset :: rest →
        ∃ t : State,
          step s = .next t
            ∧ t.hxPhase = .seek ∧ t.hxN = 0#9 ∧ t.hxSum = 0#8 ∧ t.hxBad = false ∧ t.hxOvf = false
            ∧ t.crcSpec = false ∧ (∀ i, Memory.read t.hxRb i = none)
            ∧ t.outputs = s.outputs ∧ t.pending = rest

/-- R22, R85: the invariant holds at reset. Its last part, the canonical form of the memory, is the model's (log 6). -/
def Obligations.InvariantHoldsAtReset : Prop := BlockInv State.reset ∧ LineStart State.reset

/-- R22, R85: every step keeps the invariant, from every state that has it. Its last part, the canonical form of the
memory, is the model's (log 6). -/
def Obligations.StepKeepsInvariant : Prop :=
  ∀ s t : State, BlockInv s → step s = .next t → BlockInv t

/-- R80, R132, R54: in every state that meets the invariant, every operation has a next state; a step faults in none, and
is refused only where a client reads the record buffer at an index the read port does not accept (R32; a read is a step
of its own by log 8). That `CRC.BYTE` before the first `CRC.INIT` has a next state, and that no read of an unspecified
value faults, are the model's choice of a free draw: R68 says that a model faults or refuses the first, R33 and R138
allow a fault too, and R93 gives some views no value (logs 4, 7, 9). -/
def Obligations.OperationsAreTotal : Prop :=
  (∀ (i : Instr) (s : State), BlockInv s → ∃ t : State, exec i s = .next t)
    ∧ ∀ s : State,
      BlockInv s →
        FaultFree (step s)
          ∧ ∀ x : Refusal,
            step s = .refused x →
              ∃ (i : Count) (rest : List Event),
                s.pending = .read (.rbRead i) :: rest ∧ 261 ≤ i.toNat ∧ x = .rbIndexNotAccepted i

/-- R9 and the model's choice of how operations reach the block (logs 1, 2, 15): a step performs the operation that is
presented first, decoded, in the state without it, and a read presented first is answered from the state without it
(R21; reads as steps are log 8); a word placed where the step takes it is what runs; with nothing presented nothing
changes. -/
def Obligations.StepRunsThePresentedOperation : Prop :=
  (∀ (s : State) (c : Command) (rest : List Event),
      s.pending = .op c :: rest → step s = exec (decode c) { s with pending := rest })
    ∧ (∀ (s : State) (p : Port) (rest : List Event),
        s.pending = .read p :: rest → step s = readPort p { s with pending := rest })
    ∧ (∀ (s : State) (i : Instr), i.wellFormed = true → step (present (.op (encode i)) s) = exec i s)
    ∧ (∀ (s : State) (nbits w : Nat) (i : Instr),
        decodeTableWord nbits w = some i → step (s.withFetchWord nbits w) = exec i s)
    ∧ ∀ s : State, s.pending = [] → step s = .next s

/-- R22(g), R1: an operation of the HEX unit leaves the accumulator alone, an operation of the CRC unit leaves every
register of the HEX unit, the record buffer and the trace alone; no operation touches what is presented later. -/
def Obligations.UnitsShareNoState : Prop :=
  ∀ (i : Instr) (s t : State),
    exec i s = .next t →
      (unitOf i = .hex → t.crcAcc = s.crcAcc ∧ t.crcSpec = s.crcSpec ∧ t.draws = s.draws)
        ∧ (unitOf i = .crc →
            t.hxPhase = s.hxPhase ∧ t.hxNib = s.hxNib ∧ t.hxN = s.hxN ∧ t.hxSum = s.hxSum ∧ t.hxBad = s.hxBad
              ∧ t.hxOvf = s.hxOvf ∧ t.hxRb = s.hxRb ∧ t.outputs = s.outputs)
        ∧ t.pending = s.pending

/-- R39: an operation of one unit commutes with an operation of the other, in every state. Where `CRC.BYTE` uses a free
value, that both orders draw the same one is the model's choice (logs 4, 7). -/
def Obligations.UnitsCommute : Prop :=
  ∀ (i j : Instr) (s : State),
    unitOf i = .crc → unitOf j = .hex → andThen (exec i s) (exec j) = andThen (exec j s) (exec i)

/-- R90: a verdict is emitted once by every terminator and by no other operation. -/
def Obligations.OnlyTerminatorsEmit : Prop :=
  ∀ (i : Instr) (s t : State),
    exec i s = .next t →
      (isEolOp i = true → t.outputs = s.outputs ++ [.verdict (verdictOf s)])
        ∧ (isEolOp i = false → t.outputs = s.outputs)

/-- R96: the only way to SEEK is a terminator, the only way out of SEEK is the marker, the only way out of SKIP is a
terminator, and LO is entered and left for HI by a digit only. -/
def Obligations.PhaseTransitions : Prop :=
  ∀ (i : Instr) (s t : State),
    exec i s = .next t →
      (s.hxPhase ≠ .seek → t.hxPhase = .seek → isEolOp i = true)
        ∧ (s.hxPhase = .seek → t.hxPhase ≠ .seek → i = .hxSor ∧ t.hxPhase = .hi)
        ∧ (s.hxPhase = .skip → t.hxPhase ≠ .skip → isEolOp i = true ∧ t.hxPhase = .seek)
        ∧ (s.hxPhase ≠ .lo → t.hxPhase = .lo → isDigitOp i = true ∧ s.hxPhase = .hi)
        ∧ (s.hxPhase = .lo → t.hxPhase = .hi → isDigitOp i = true)

/-- R10 to R15, R31: who writes each register and the record buffer. -/
def Obligations.RegisterWriters : Prop :=
  ∀ (i : Instr) (s t : State),
    exec i s = .next t →
      (t.crcAcc ≠ s.crcAcc → unitOf i = .crc)
        ∧ (t.hxPhase ≠ s.hxPhase →
            unitOf i = .hex
              ∧ (isEolOp i = true ∨ (i = .hxSor ∧ s.hxPhase = .seek) ∨ s.hxPhase = .hi ∨ s.hxPhase = .lo))
        ∧ (t.hxNib ≠ s.hxNib → isDigitOp i = true ∧ s.hxPhase = .hi)
        ∧ (t.hxN ≠ s.hxN → (i = .hxSor ∧ s.hxPhase = .seek) ∨ (isDigitOp i = true ∧ s.hxPhase = .lo))
        ∧ (t.hxSum ≠ s.hxSum → (i = .hxSor ∧ s.hxPhase = .seek) ∨ (isDigitOp i = true ∧ s.hxPhase = .lo))
        ∧ (t.hxRb ≠ s.hxRb → isDigitOp i = true ∧ s.hxPhase = .lo)
        ∧ (s.hxBad = false → t.hxBad = true →
            (i = .hxSor ∨ classOf i = some .other) ∧ (s.hxPhase = .hi ∨ s.hxPhase = .lo))
        ∧ (s.hxOvf = false → t.hxOvf = true → isDigitOp i = true ∧ s.hxPhase = .hi ∧ 261 ≤ s.hxN.toNat)
        ∧ (s.hxBad = true → t.hxBad = false → isEolOp i = true)
        ∧ (s.hxOvf = true → t.hxOvf = false → isEolOp i = true)

/-- 00_scope.md section 6, R12, R33, R138: a step never shows, and never lets a specified value depend on, what a register
or a byte holds while the spec calls it unspecified. So no statement rests on the value a register is given at reset.
That two runs with equal counts of draws are given equal free values is the model's choice (log 7), which the spec does
not promise of two chips; without it the outputs would agree up to those values only. -/
def Obligations.UnspecifiedStorageIsUnobservable : Prop :=
  ∀ s t : State, SameSpecified s t → SameSpecifiedResult (step s) (step t)

/-! ## Reads -/

/-- R37, R21: reading an output changes no state of the block and returns one value. An index of the record buffer that
the port does not accept is refused (R32). That every other read completes, also one of an unspecified value, is the
model's choice of a free draw: R33 and R138 allow a fault, and R93 gives no value to `rec_payload(k)` with k at or above
`rec_count` or to `rec_checksum` with no byte (logs 4, 7, 9); reads as steps are log 8. -/
def Obligations.ReadsChangeNoBlockState : Prop :=
  ∀ (p : Port) (s : State),
    ((∀ i : Count, p = .rbRead i → i.toNat < 261) →
        ∃ (t : State) (o : Output),
          readPort p s = .next t ∧ t = { s with draws := t.draws, outputs := s.outputs ++ [o] })
      ∧ ∀ i : Count, p = .rbRead i → 261 ≤ i.toNat → readPort p s = .refused (.rbIndexNotAccepted i)

/-- R69, R138, U1: `crc_out` shows the accumulator once `CRC.INIT` has been performed; before that a read of it returns a
value that nothing constrains, "never 0 and never `0xFFFFFFFF`" as a value to rely on, fresh at every read. That it
returns a free value there, and does not fault, is the model's choice (log 4; the form of the free value is log 7). -/
def Obligations.CrcOutReadPort : Prop :=
  ∀ s : State,
    (s.crcSpec = true → readPort .crcOut s = .next { s with outputs := s.outputs ++ [.crcOut s.crcAcc] })
      ∧ (s.crcSpec = false →
          readPort .crcOut s
            = .next
                { s with
                  draws := s.draws + 1
                  outputs := s.outputs ++ [.crcOut (Config.unspecWord s.draws)] })

/-- R21, R32, R33: in every phase, below the count the port returns the byte held; at or above it a value that nothing
constrains, fresh at every read, whatever the buffer holds there (the free value is the model's form of "a free draw at
every read", log 7; that the port follows R21 and R33 from a marker to the end of its line too, where R137 can be read
otherwise, is DEDUCED, log 21). -/
def Obligations.RecordBufferReadPort : Prop :=
  ∀ (i : Count) (s : State),
    (∀ b : Byte, i.toNat < s.hxN.toNat → i.toNat < 261 → Memory.read s.hxRb i.toNat = some b →
        readPort (.rbRead i) s = .next { s with outputs := s.outputs ++ [.rbRead i b] })
      ∧ (s.hxN.toNat ≤ i.toNat → i.toNat < 261 →
          readPort (.rbRead i) s
            = .next
                { s with
                  draws := s.draws + 1
                  outputs := s.outputs ++ [.rbRead i (Config.unspecByte s.draws)] })

/-- R93, R52, R38: from the end of a line to the next marker, that is in SEEK, the record views show the fields of the
record in the buffer, the address high byte first, wherever every index they read is below `nbytes`; the output `nbytes`
shows the count in every phase (R18). -/
def Obligations.RecordViewsShowFields : Prop :=
  (∀ s : State, readPort .nbytes s = .next { s with outputs := s.outputs ++ [.nbytes s.hxN] })
    ∧ ∀ (s : State) (bytes : List Byte),
      s.hxPhase = .seek →
        (∀ i < s.hxN.toNat, Memory.read s.hxRb i = bytes[i]?) → bytes.length = s.hxN.toNat →
          (∀ count : Byte, bytes[0]? = some count →
              readPort .recCount s = .next { s with outputs := s.outputs ++ [.recCount count] }
                ∧ ∀ (k b : Byte), k.toNat < count.toNat → bytes[4 + k.toNat]? = some b →
                    readPort (.recPayload k) s = .next { s with outputs := s.outputs ++ [.recPayload k b] })
            ∧ (∀ high low : Byte, bytes[1]? = some high → bytes[2]? = some low →
                ∃ address : Half,
                  address.toNat = 256 * high.toNat + low.toNat
                    ∧ readPort .recAddr s = .next { s with outputs := s.outputs ++ [.recAddr address] })
            ∧ (∀ kind : Byte, bytes[3]? = some kind →
                readPort .recType s = .next { s with outputs := s.outputs ++ [.recType kind] })
            ∧ (∀ last : Byte, bytes.getLast? = some last →
                readPort .recChecksum s = .next { s with outputs := s.outputs ++ [.recChecksum last] })

/-- R139, R93: after a short record, a view that reaches an index at or above the count returns a value that nothing
constrains, whatever the buffer holds; so does the whole of `rec_addr` when only its high byte was decoded (the reading
of the spec is log 20, the form of the free value log 7: both the model's). -/
def Obligations.ShortRecordViewsAreFree : Prop :=
  ∀ s : State,
    (s.hxN.toNat = 0 →
        readPort .recCount s
          = .next { s with draws := s.draws + 1, outputs := s.outputs ++ [.recCount (Config.unspecByte s.draws)] })
      ∧ (s.hxN.toNat ≤ 2 →
          readPort .recAddr s
            = .next { s with draws := s.draws + 1, outputs := s.outputs ++ [.recAddr (Config.unspecHalf s.draws)] })
      ∧ (s.hxN.toNat ≤ 3 →
          readPort .recType s
            = .next { s with draws := s.draws + 1, outputs := s.outputs ++ [.recType (Config.unspecByte s.draws)] })
      ∧ ∀ k : Byte, s.hxN.toNat ≤ 4 + k.toNat →
          readPort (.recPayload k) s
            = .next
                { s with
                  draws := s.draws + 1
                  outputs := s.outputs ++ [.recPayload k (Config.unspecByte s.draws)] }

/-- R137, U3: from a marker to the end of its line every record view returns a value that nothing constrains, whatever
the buffer holds: never the old record, and not the new line's bytes either (the second is DEDUCED, log 21; the form of
the free value is log 7; the view of the checksum is log 9: all the model's). -/
def Obligations.LateReadsAreFree : Prop :=
  ∀ s : State,
    s.hxPhase ≠ .seek →
      readPort .recCount s
          = .next { s with draws := s.draws + 1, outputs := s.outputs ++ [.recCount (Config.unspecByte s.draws)] }
        ∧ readPort .recAddr s
          = .next { s with draws := s.draws + 1, outputs := s.outputs ++ [.recAddr (Config.unspecHalf s.draws)] }
        ∧ readPort .recType s
          = .next { s with draws := s.draws + 1, outputs := s.outputs ++ [.recType (Config.unspecByte s.draws)] }
        ∧ (∀ k : Byte,
            readPort (.recPayload k) s
              = .next
                  { s with
                    draws := s.draws + 1
                    outputs := s.outputs ++ [.recPayload k (Config.unspecByte s.draws)] })
        ∧ readPort .recChecksum s
          = .next { s with draws := s.draws + 1, outputs := s.outputs ++ [.recChecksum (Config.unspecByte s.draws)] }

/-- R137: in SEEK a character that is not `:` leaves the record as it is, for `rb_read` and for the record views; the next
`:` makes every byte unspecified for both. -/
def Obligations.RecordHeldUntilNextMarker : Prop :=
  ∀ (c : Byte) (s : State),
    s.hxPhase = .seek →
      ∃ t : State,
        exec (decode (.hx c)) s = .next t
          ∧ (c ≠ 0x3A#8 →
              t.hxPhase = .seek ∧ t.hxN = s.hxN ∧ t.hxRb = s.hxRb
                ∧ ∀ i, rbByte t i = rbByte s i ∧ viewByte t i = viewByte s i)
          ∧ (c = 0x3A#8 → t.hxN = 0#9 ∧ ∀ i, rbByte t i = none ∧ viewByte t i = none)

/-! ## Whole lines -/

/-- R50: "For all valid hex-digit pairs, `decode` recovers exactly the encoded byte": the first pair after the marker. -/
def Obligations.PairRecoversByte : Prop :=
  ∀ (s : State) (c1 c2 : Byte) (high low : Nibble),
    LineStart s → nib c1 = some high → nib c2 = some low →
      ∃ t : State,
        performAll (hxText [0x3A#8, c1, c2]) s = .next t
          ∧ t.hxPhase = .hi ∧ t.hxN = 1 ∧ t.hxSum = high ++ low
          ∧ Memory.read t.hxRb 0 = some (high ++ low)
          ∧ (high ++ low).toNat = 16 * high.toNat + low.toNat

/-- R96, R148: in SKIP a text without a terminator is absorbed whole and changes nothing. -/
def Obligations.SkipAbsorbsText : Prop :=
  ∀ (line : List Byte) (s : State),
    isLine line = true → s.hxPhase = .skip → performAll (hxText line) s = .next s

/-- R95, in the rule's own terms: with p the place of the first `:` and k the largest number, at most 261, such that the 2k
characters after it are all hex digits, k bytes are decoded from them, and the state says why consumption stopped. -/
def Obligations.LongestRunOfPairsIsDecoded : Prop :=
  ∀ (junk cs : List Byte) (s : State),
    isLine (junk ++ cs) = true → 0x3A#8 ∉ junk → LineStart s →
      performAll (hxText junk) s = .next s
        ∧ ∃ (k : Nat) (t : State),
          (k ≤ 261 ∧ 2 * k ≤ cs.length ∧ ∀ c ∈ cs.take (2 * k), (nib c).isSome = true)
            ∧ (∀ m : Nat, m ≤ 261 → 2 * m ≤ cs.length → (∀ c ∈ cs.take (2 * m), (nib c).isSome = true) → m ≤ k)
            ∧ performAll (hxText (junk ++ 0x3A#8 :: cs)) s = .next t
            ∧ t.hxN.toNat = k
            ∧ (∀ j < k, ∃ high low : Nibble,
                (cs[2 * j]?).bind nib = some high ∧ (cs[2 * j + 1]?).bind nib = some low
                  ∧ Memory.read t.hxRb j = some (high ++ low))
            ∧ t.hxSum = sumBytes (Memory.bytesBelow t.hxRb k)
            ∧ (cs.length = 2 * k → t.hxPhase = .hi ∧ t.hxBad = false ∧ t.hxOvf = false)
            ∧ (∀ (c : Byte) (rest : List Byte), cs.drop (2 * k) = c :: rest →
                ((nib c).isSome = true → k = 261 → t.hxPhase = .skip ∧ t.hxOvf = true ∧ t.hxBad = false)
                  ∧ ((nib c).isSome = true → k < 261 → rest = [] →
                      t.hxPhase = .lo ∧ nib c = some t.hxNib ∧ t.hxBad = false ∧ t.hxOvf = false)
                  ∧ ((nib c).isSome = true → k < 261 → rest ≠ [] →
                      t.hxPhase = .skip ∧ t.hxBad = true ∧ t.hxOvf = false)
                  ∧ (nib c = none → t.hxPhase = .skip ∧ t.hxBad = true ∧ t.hxOvf = false))

/-- R95: the character-at-a-time operations compute PFL's procedure on every line, from every line-start state: the bytes
of the longest run of hex pairs after the first `:`, at most 261, with their sum and count, the bytes beyond them as
before, and why consumption stopped. -/
def Obligations.TextRefinesLineProcedure : Prop :=
  ∀ (line : List Byte) (s : State),
    isLine line = true → LineStart s →
      (afterMarker line = none → performAll (hxText line) s = .next s)
        ∧ ∀ cs : List Byte,
          afterMarker line = some cs →
            ∃ t : State,
              performAll (hxText line) s = .next t
                ∧ t = { s with
                        hxPhase := stopPhase (lineStop cs)
                        hxNib := t.hxNib
                        hxN := BitVec.ofNat 9 (lineBytes cs).length
                        hxSum := sumBytes (lineBytes cs)
                        hxBad := lineStop cs == .malformed
                        hxOvf := lineStop cs == .capacity
                        hxRb := t.hxRb }
                ∧ (∀ v : Nibble, lineStop cs = .heldDigit v → t.hxNib = v)
                ∧ (∀ i < (lineBytes cs).length, Memory.read t.hxRb i = (lineBytes cs)[i]?)
                ∧ ∀ i, (lineBytes cs).length ≤ i → Memory.read t.hxRb i = Memory.read s.hxRb i

/-- R16, R90, R129 with R95: a line ended by LF or by CR, fed in any line-start state, emits exactly one verdict, the one
the line's own characters determine, and leaves the line-start state. -/
def Obligations.VerdictDependsOnOwnLineOnly : Prop :=
  ∀ (line : List Byte) (i : Instr) (s : State),
    isLine line = true → isEolOp i = true → LineStart s →
      ∃ t : State,
        performAll (hxText line ++ [i]) s = .next t
          ∧ LineStart t
          ∧ t.outputs = s.outputs ++ [.verdict (lineVerdict .strict line)]

/-- R91: a line's verdict is valid exactly when its cause mask is zero; spelled out, when a `:` is found, every character
after the first one is a hex digit, their number is even and at most 522, at least one byte is decoded, and the bytes
sum to zero. -/
def Obligations.ValidLinesSpelledOut : Prop :=
  ∀ (line : List Byte) (i : Instr) (s : State),
    isLine line = true → isEolOp i = true → LineStart s →
      ∃ (t : State) (v : Verdict),
        performAll (hxText line ++ [i]) s = .next t
          ∧ t.outputs = s.outputs ++ [.verdict v]
          ∧ (v.valid = true ↔ v.err = 0#5)
          ∧ (v.valid = true
              ↔ ∃ junk digits : List Byte,
                  line = junk ++ 0x3A#8 :: digits
                    ∧ 0x3A#8 ∉ junk
                    ∧ (∀ c ∈ digits, (nib c).isSome = true)
                    ∧ digits.length % 2 = 0
                    ∧ digits.length ≤ 2 * 261
                    ∧ 1 ≤ v.nbytes.toNat
                    ∧ sumBytes (Memory.bytesBelow t.hxRb v.nbytes.toNat) = 0#8)

/-- R58: the checksum byte is the two's complement of the 8-bit sum; it makes the sum of all bytes wrap to zero, and no
other byte does; the rule's example. -/
def Obligations.ChecksumByteClosesSum : Prop :=
  (∀ bytes : List Byte,
      (checksumByte bytes).toNat = (256 - (bytes.map BitVec.toNat).sum % 256) % 256)
    ∧ (∀ (bytes : List Byte) (cc : Byte), sumBytes (bytes ++ [cc]) = 0#8 ↔ cc = checksumByte bytes)
    ∧ checksumByte [0x03#8, 0x00#8, 0x30#8, 0x00#8, 0x02#8, 0x33#8, 0x7A#8] = 0x1E#8

/-- R94 with R47, R51, R58: the line that a sender writes for a record, in capital or small letters and after any junk
without a marker, is decoded to that record, from every state. -/
def Obligations.SentRecordIsDecoded : Prop :=
  ∀ (junk : List Byte) (small : Bool) (r : HexRecord) (s : State),
    isLine junk = true → Config.hxSorCode ∉ junk → r.wellFormed = true →
      ∃ t : State, decodeLine (junk ++ recordLine small r) s = some (.ok r, t)

/-- R94, R120: a line whose verdict is not valid is decoded to its cause mask, from every state. -/
def Obligations.RejectedLineGivesCauses : Prop :=
  ∀ (line : List Byte) (s : State),
    isLine line = true → (lineVerdict .strict line).valid = false →
      ∃ t : State, decodeLine line s = some (.error (lineErr line), t) ∧ lineErr line ≠ 0#5
end

