-- ==== Sys2Proof/Laws/Crc.lean ====
section
/-! SUPPORT. The CRC unit's shared functions, each said once. -/

namespace Sys2Proof.Laws

open Sys2Proof.Machine

/-- Input bytes are not reflected (R7). -/
@[simp] theorem crcInByte_eq (b : Byte) : crcInByte b = b := rfl

/-- The result is the accumulator (R69). -/
@[simp] theorem crcResult_eq (a : Word) : crcResult a = a := by
  simp [crcResult, Config.crcRefOut, Config.crcXorOut]

/-- The rounds are the iterates of one round. -/
theorem crcRounds_eq_iterate (n : Nat) (a : Word) : crcRounds n a = crcRound^[n] a := by
  induction n generalizing a with
  | zero => rfl
  | succ n ih => simp [crcRounds, ih, Function.iterate_succ]

/-- `crc32` is a fold. -/
theorem crc32_eq_foldl (data : List Byte) (seed : Word) : crc32 data seed = data.foldl crcStep seed := by
  induction data generalizing seed with
  | nil => rfl
  | cons b bs ih => simp [crc32, ih]

end Sys2Proof.Laws
end

