-- ==== Sys2Proof/Laws/Encoding.lean ====
section
/-! SUPPORT. The bits of the command words that `encode` writes, and of a byte made of two nibbles. -/

namespace Sys2Proof.Laws

/-- The bits of `{0b0, s}` (30_encoding.md R46, R56). -/
theorem initWord_bit (seed : Word) (i : Nat) : (0#1 ++ seed : CrcCmd).getLsbD i = seed.getLsbD i := by
  have h : (0#1 ++ seed).getLsbD i = seed.getLsbD i := by
    rw [BitVec.getLsbD_append]
    split
    · rfl
    · next h => simp [BitVec.getLsbD_of_ge seed i (by omega)]
  exact h

/-- The bits of `{0b1, 24 ignored bits, b}` (30_encoding.md R46, R56). -/
theorem byteWord_bit (x : BitVec 24) (b : Byte) (i : Nat) :
    (1#1 ++ x ++ b : CrcCmd).getLsbD i
      = if i < 8 then b.getLsbD i else if i < 32 then x.getLsbD (i - 8) else decide (i = 32) := by
  have h : ((1#1 ++ x) ++ b).getLsbD i
      = if i < 8 then b.getLsbD i else if i < 32 then x.getLsbD (i - 8) else decide (i = 32) := by
    rw [BitVec.getLsbD_append]
    split
    · rfl
    · rw [BitVec.getLsbD_append]
      split
      · next h1 h2 => rw [if_pos (by omega)]
      · next h1 h2 =>
        rw [if_neg (by omega)]
        by_cases hi : i = 32
        · subst hi; decide
        · rw [BitVec.getLsbD_of_ge _ _ (by omega)]; simp [hi]
  exact h

end Sys2Proof.Laws
end

