-- ==== Sys2Proof/Laws/Memory.lean ====
section
/-! SUPPORT. The record buffer's memory: read after write, the canonical form, the bytes and the sum below an index. -/

namespace Sys2Proof.Laws

open Sys2Proof.Machine

@[simp] theorem read_nil (a : Nat) : Memory.read [] a = none := rfl

/-- A byte reads as what was written there last. -/
@[simp] theorem read_write_same (m : Memory) (a : Nat) (b : Byte) :
    Memory.read (Memory.write m a b) a = some b := by
  induction m with
  | nil => simp [Memory.write, Memory.read]
  | cons x m ih =>
    obtain ⟨a', b'⟩ := x
    simp only [Memory.write]
    split
    · simp [Memory.read]
    · split
      · simp [Memory.read]
      · next h => simp [Memory.read, h, ih]

/-- A write leaves every other index alone. -/
theorem read_write_other (m : Memory) {a c : Nat} (b : Byte) (h : c ≠ a) :
    Memory.read (Memory.write m a b) c = Memory.read m c := by
  induction m with
  | nil => simp [Memory.write, Memory.read, h.symm]
  | cons x m ih =>
    obtain ⟨a', b'⟩ := x
    simp only [Memory.write]
    split
    · simp [Memory.read, h.symm]
    · split
      · next h' => subst h'; simp [Memory.read, h.symm]
      · simp [Memory.read, ih]

/-- What a write lists was listed before, or is what it wrote. -/
theorem mem_write {m : Memory} {a : Nat} {b : Byte} {x : Host.Cell} (h : x ∈ Memory.write m a b) :
    x = (a, b) ∨ x ∈ m := by
  induction m with
  | nil => simpa [Memory.write] using h
  | cons y m ih =>
    obtain ⟨a', b'⟩ := y
    simp only [Memory.write] at h
    split at h
    · simpa using h
    · split at h
      · rcases List.mem_cons.mp h with h | h
        · exact .inl h
        · exact .inr (List.mem_cons_of_mem _ h)
      · rcases List.mem_cons.mp h with h | h
        · exact .inr (h ▸ List.mem_cons_self)
        · exact (ih h).imp_right (List.mem_cons_of_mem _)

/-- The empty record buffer is in canonical form. -/
theorem wf_nil : Memory.wf [] := by simp [Memory.wf]

/-- A write inside the buffer keeps the canonical form. -/
theorem wf_write {m : Memory} {a : Nat} (b : Byte) (h : Memory.wf m) (ha : a < Config.hexCap) :
    Memory.wf (Memory.write m a b) := by
  refine ⟨?_, fun x hx => ?_⟩
  · obtain ⟨hs, -⟩ := h
    induction m with
    | nil => simp [Memory.write]
    | cons y m ih =>
      obtain ⟨a', b'⟩ := y
      obtain ⟨hy, hm⟩ := List.pairwise_cons.mp hs
      simp only [Memory.write]
      split
      · next hlt =>
        refine List.pairwise_cons.mpr ⟨fun x hx => ?_, hs⟩
        rcases List.mem_cons.mp hx with rfl | hx
        · exact hlt
        · exact lt_trans hlt (hy x hx)
      · next hge =>
        split
        · next he => subst he; exact List.pairwise_cons.mpr ⟨fun x hx => hy x hx, hm⟩
        · next hne =>
          refine List.pairwise_cons.mpr ⟨fun x hx => ?_, ih hm⟩
          rcases mem_write hx with rfl | hx
          · simp only at hge ⊢; omega
          · exact hy x hx
  · rcases mem_write hx with rfl | hx
    · exact ha
    · exact h.2 x hx

/-- A write at or above an index leaves the sum below it alone. -/
theorem sumBelow_write_above (m : Memory) {a n : Nat} (b : Byte) (h : n ≤ a) :
    Memory.sumBelow (Memory.write m a b) n = Memory.sumBelow m n := by
  induction n with
  | zero => rfl
  | succ n ih =>
    simp only [Memory.sumBelow, ih (by omega), read_write_other m b (show n ≠ a by omega)]

/-- Writing the next byte adds it to the sum. -/
theorem sumBelow_write_next (m : Memory) (n : Nat) (b : Byte) :
    Memory.sumBelow (Memory.write m n b) (n + 1) = Memory.sumBelow m n + b := by
  simp [Memory.sumBelow, sumBelow_write_above]

/-- A write at or above an index leaves the bytes below it alone. -/
theorem bytesBelow_write_above (m : Memory) {a n : Nat} (b : Byte) (h : n ≤ a) :
    Memory.bytesBelow (Memory.write m a b) n = Memory.bytesBelow m n := by
  induction n with
  | zero => rfl
  | succ n ih =>
    simp only [Memory.bytesBelow, ih (by omega), read_write_other m b (show n ≠ a by omega)]

/-- Writing the next byte appends it. -/
theorem bytesBelow_write_next (m : Memory) (n : Nat) (b : Byte) :
    Memory.bytesBelow (Memory.write m n b) (n + 1) = Memory.bytesBelow m n ++ [b] := by
  simp [Memory.bytesBelow, bytesBelow_write_above]

end Sys2Proof.Laws
end

