-- ==== Sys2Proof/Laws/State.lean ====
section
/-! SUPPORT. One lemma for each field of State and each named update of Machine/Ops.lean. -/

namespace Sys2Proof.Laws

open Sys2Proof.Machine

/-! ### writeAcc -/

@[simp] theorem writeAcc_crcAcc (v : Word) (s : State) : (writeAcc v s).crcAcc = v := rfl
@[simp] theorem writeAcc_crcSpec (v : Word) (s : State) : (writeAcc v s).crcSpec = s.crcSpec := rfl
@[simp] theorem writeAcc_hxPhase (v : Word) (s : State) : (writeAcc v s).hxPhase = s.hxPhase := rfl
@[simp] theorem writeAcc_hxNib (v : Word) (s : State) : (writeAcc v s).hxNib = s.hxNib := rfl
@[simp] theorem writeAcc_hxN (v : Word) (s : State) : (writeAcc v s).hxN = s.hxN := rfl
@[simp] theorem writeAcc_hxSum (v : Word) (s : State) : (writeAcc v s).hxSum = s.hxSum := rfl
@[simp] theorem writeAcc_hxBad (v : Word) (s : State) : (writeAcc v s).hxBad = s.hxBad := rfl
@[simp] theorem writeAcc_hxOvf (v : Word) (s : State) : (writeAcc v s).hxOvf = s.hxOvf := rfl
@[simp] theorem writeAcc_hxRb (v : Word) (s : State) : (writeAcc v s).hxRb = s.hxRb := rfl
@[simp] theorem writeAcc_draws (v : Word) (s : State) : (writeAcc v s).draws = s.draws := rfl
@[simp] theorem writeAcc_pending (v : Word) (s : State) : (writeAcc v s).pending = s.pending := rfl
@[simp] theorem writeAcc_outputs (v : Word) (s : State) : (writeAcc v s).outputs = s.outputs := rfl

/-! ### markSpecified -/

@[simp] theorem markSpecified_crcAcc (s : State) : (markSpecified s).crcAcc = s.crcAcc := rfl
@[simp] theorem markSpecified_crcSpec (s : State) : (markSpecified s).crcSpec = true := rfl
@[simp] theorem markSpecified_hxPhase (s : State) : (markSpecified s).hxPhase = s.hxPhase := rfl
@[simp] theorem markSpecified_hxNib (s : State) : (markSpecified s).hxNib = s.hxNib := rfl
@[simp] theorem markSpecified_hxN (s : State) : (markSpecified s).hxN = s.hxN := rfl
@[simp] theorem markSpecified_hxSum (s : State) : (markSpecified s).hxSum = s.hxSum := rfl
@[simp] theorem markSpecified_hxBad (s : State) : (markSpecified s).hxBad = s.hxBad := rfl
@[simp] theorem markSpecified_hxOvf (s : State) : (markSpecified s).hxOvf = s.hxOvf := rfl
@[simp] theorem markSpecified_hxRb (s : State) : (markSpecified s).hxRb = s.hxRb := rfl
@[simp] theorem markSpecified_draws (s : State) : (markSpecified s).draws = s.draws := rfl
@[simp] theorem markSpecified_pending (s : State) : (markSpecified s).pending = s.pending := rfl
@[simp] theorem markSpecified_outputs (s : State) : (markSpecified s).outputs = s.outputs := rfl

/-! ### startRecord -/

@[simp] theorem startRecord_crcAcc (s : State) : (startRecord s).crcAcc = s.crcAcc := rfl
@[simp] theorem startRecord_crcSpec (s : State) : (startRecord s).crcSpec = s.crcSpec := rfl
@[simp] theorem startRecord_hxPhase (s : State) : (startRecord s).hxPhase = .hi := rfl
@[simp] theorem startRecord_hxNib (s : State) : (startRecord s).hxNib = s.hxNib := rfl
@[simp] theorem startRecord_hxN (s : State) : (startRecord s).hxN = 0#9 := rfl
@[simp] theorem startRecord_hxSum (s : State) : (startRecord s).hxSum = 0#8 := rfl
@[simp] theorem startRecord_hxBad (s : State) : (startRecord s).hxBad = s.hxBad := rfl
@[simp] theorem startRecord_hxOvf (s : State) : (startRecord s).hxOvf = s.hxOvf := rfl
@[simp] theorem startRecord_hxRb (s : State) : (startRecord s).hxRb = s.hxRb := rfl
@[simp] theorem startRecord_draws (s : State) : (startRecord s).draws = s.draws := rfl
@[simp] theorem startRecord_pending (s : State) : (startRecord s).pending = s.pending := rfl
@[simp] theorem startRecord_outputs (s : State) : (startRecord s).outputs = s.outputs := rfl

/-! ### raiseBadDigit -/

@[simp] theorem raiseBadDigit_crcAcc (s : State) : (raiseCause .badDigit s).crcAcc = s.crcAcc := rfl
@[simp] theorem raiseBadDigit_crcSpec (s : State) : (raiseCause .badDigit s).crcSpec = s.crcSpec := rfl
@[simp] theorem raiseBadDigit_hxPhase (s : State) : (raiseCause .badDigit s).hxPhase = .skip := rfl
@[simp] theorem raiseBadDigit_hxNib (s : State) : (raiseCause .badDigit s).hxNib = s.hxNib := rfl
@[simp] theorem raiseBadDigit_hxN (s : State) : (raiseCause .badDigit s).hxN = s.hxN := rfl
@[simp] theorem raiseBadDigit_hxSum (s : State) : (raiseCause .badDigit s).hxSum = s.hxSum := rfl
@[simp] theorem raiseBadDigit_hxBad (s : State) : (raiseCause .badDigit s).hxBad = true := rfl
@[simp] theorem raiseBadDigit_hxOvf (s : State) : (raiseCause .badDigit s).hxOvf = s.hxOvf := rfl
@[simp] theorem raiseBadDigit_hxRb (s : State) : (raiseCause .badDigit s).hxRb = s.hxRb := rfl
@[simp] theorem raiseBadDigit_draws (s : State) : (raiseCause .badDigit s).draws = s.draws := rfl
@[simp] theorem raiseBadDigit_pending (s : State) : (raiseCause .badDigit s).pending = s.pending := rfl
@[simp] theorem raiseBadDigit_outputs (s : State) : (raiseCause .badDigit s).outputs = s.outputs := rfl

/-! ### raiseOverrun -/

@[simp] theorem raiseOverrun_crcAcc (s : State) : (raiseCause .overrun s).crcAcc = s.crcAcc := rfl
@[simp] theorem raiseOverrun_crcSpec (s : State) : (raiseCause .overrun s).crcSpec = s.crcSpec := rfl
@[simp] theorem raiseOverrun_hxPhase (s : State) : (raiseCause .overrun s).hxPhase = .skip := rfl
@[simp] theorem raiseOverrun_hxNib (s : State) : (raiseCause .overrun s).hxNib = s.hxNib := rfl
@[simp] theorem raiseOverrun_hxN (s : State) : (raiseCause .overrun s).hxN = s.hxN := rfl
@[simp] theorem raiseOverrun_hxSum (s : State) : (raiseCause .overrun s).hxSum = s.hxSum := rfl
@[simp] theorem raiseOverrun_hxBad (s : State) : (raiseCause .overrun s).hxBad = s.hxBad := rfl
@[simp] theorem raiseOverrun_hxOvf (s : State) : (raiseCause .overrun s).hxOvf = true := rfl
@[simp] theorem raiseOverrun_hxRb (s : State) : (raiseCause .overrun s).hxRb = s.hxRb := rfl
@[simp] theorem raiseOverrun_draws (s : State) : (raiseCause .overrun s).draws = s.draws := rfl
@[simp] theorem raiseOverrun_pending (s : State) : (raiseCause .overrun s).pending = s.pending := rfl
@[simp] theorem raiseOverrun_outputs (s : State) : (raiseCause .overrun s).outputs = s.outputs := rfl

/-! ### holdNibble -/

@[simp] theorem holdNibble_crcAcc (v : Nibble) (s : State) : (holdNibble v s).crcAcc = s.crcAcc := rfl
@[simp] theorem holdNibble_crcSpec (v : Nibble) (s : State) : (holdNibble v s).crcSpec = s.crcSpec := rfl
@[simp] theorem holdNibble_hxPhase (v : Nibble) (s : State) : (holdNibble v s).hxPhase = .lo := rfl
@[simp] theorem holdNibble_hxNib (v : Nibble) (s : State) : (holdNibble v s).hxNib = v := rfl
@[simp] theorem holdNibble_hxN (v : Nibble) (s : State) : (holdNibble v s).hxN = s.hxN := rfl
@[simp] theorem holdNibble_hxSum (v : Nibble) (s : State) : (holdNibble v s).hxSum = s.hxSum := rfl
@[simp] theorem holdNibble_hxBad (v : Nibble) (s : State) : (holdNibble v s).hxBad = s.hxBad := rfl
@[simp] theorem holdNibble_hxOvf (v : Nibble) (s : State) : (holdNibble v s).hxOvf = s.hxOvf := rfl
@[simp] theorem holdNibble_hxRb (v : Nibble) (s : State) : (holdNibble v s).hxRb = s.hxRb := rfl
@[simp] theorem holdNibble_draws (v : Nibble) (s : State) : (holdNibble v s).draws = s.draws := rfl
@[simp] theorem holdNibble_pending (v : Nibble) (s : State) : (holdNibble v s).pending = s.pending := rfl
@[simp] theorem holdNibble_outputs (v : Nibble) (s : State) : (holdNibble v s).outputs = s.outputs := rfl

/-! ### commitByte -/

@[simp] theorem commitByte_crcAcc (b : Byte) (s : State) : (commitByte b s).crcAcc = s.crcAcc := rfl
@[simp] theorem commitByte_crcSpec (b : Byte) (s : State) : (commitByte b s).crcSpec = s.crcSpec := rfl
@[simp] theorem commitByte_hxPhase (b : Byte) (s : State) : (commitByte b s).hxPhase = .hi := rfl
@[simp] theorem commitByte_hxNib (b : Byte) (s : State) : (commitByte b s).hxNib = s.hxNib := rfl
@[simp] theorem commitByte_hxN (b : Byte) (s : State) : (commitByte b s).hxN = s.hxN + 1 := rfl
@[simp] theorem commitByte_hxSum (b : Byte) (s : State) : (commitByte b s).hxSum = s.hxSum + b := rfl
@[simp] theorem commitByte_hxBad (b : Byte) (s : State) : (commitByte b s).hxBad = s.hxBad := rfl
@[simp] theorem commitByte_hxOvf (b : Byte) (s : State) : (commitByte b s).hxOvf = s.hxOvf := rfl
@[simp] theorem commitByte_hxRb (b : Byte) (s : State) : (commitByte b s).hxRb = Memory.write s.hxRb s.hxN.toNat b := rfl
@[simp] theorem commitByte_draws (b : Byte) (s : State) : (commitByte b s).draws = s.draws := rfl
@[simp] theorem commitByte_pending (b : Byte) (s : State) : (commitByte b s).pending = s.pending := rfl
@[simp] theorem commitByte_outputs (b : Byte) (s : State) : (commitByte b s).outputs = s.outputs := rfl

/-! ### hxEndLine -/

@[simp] theorem hxEndLine_crcAcc (s : State) : (hxEndLine s).crcAcc = s.crcAcc := rfl
@[simp] theorem hxEndLine_crcSpec (s : State) : (hxEndLine s).crcSpec = s.crcSpec := rfl
@[simp] theorem hxEndLine_hxPhase (s : State) : (hxEndLine s).hxPhase = .seek := rfl
@[simp] theorem hxEndLine_hxNib (s : State) : (hxEndLine s).hxNib = s.hxNib := rfl
@[simp] theorem hxEndLine_hxN (s : State) : (hxEndLine s).hxN = s.hxN := rfl
@[simp] theorem hxEndLine_hxSum (s : State) : (hxEndLine s).hxSum = s.hxSum := rfl
@[simp] theorem hxEndLine_hxBad (s : State) : (hxEndLine s).hxBad = false := rfl
@[simp] theorem hxEndLine_hxOvf (s : State) : (hxEndLine s).hxOvf = false := rfl
@[simp] theorem hxEndLine_hxRb (s : State) : (hxEndLine s).hxRb = s.hxRb := rfl
@[simp] theorem hxEndLine_draws (s : State) : (hxEndLine s).draws = s.draws := rfl
@[simp] theorem hxEndLine_pending (s : State) : (hxEndLine s).pending = s.pending := rfl
@[simp] theorem hxEndLine_outputs (s : State) : (hxEndLine s).outputs = s.outputs ++ [.verdict (verdictOf s)] := rfl

/-! ### emit -/

@[simp] theorem emit_crcAcc (o : Output) (s : State) : (emit o s).crcAcc = s.crcAcc := rfl
@[simp] theorem emit_crcSpec (o : Output) (s : State) : (emit o s).crcSpec = s.crcSpec := rfl
@[simp] theorem emit_hxPhase (o : Output) (s : State) : (emit o s).hxPhase = s.hxPhase := rfl
@[simp] theorem emit_hxNib (o : Output) (s : State) : (emit o s).hxNib = s.hxNib := rfl
@[simp] theorem emit_hxN (o : Output) (s : State) : (emit o s).hxN = s.hxN := rfl
@[simp] theorem emit_hxSum (o : Output) (s : State) : (emit o s).hxSum = s.hxSum := rfl
@[simp] theorem emit_hxBad (o : Output) (s : State) : (emit o s).hxBad = s.hxBad := rfl
@[simp] theorem emit_hxOvf (o : Output) (s : State) : (emit o s).hxOvf = s.hxOvf := rfl
@[simp] theorem emit_hxRb (o : Output) (s : State) : (emit o s).hxRb = s.hxRb := rfl
@[simp] theorem emit_draws (o : Output) (s : State) : (emit o s).draws = s.draws := rfl
@[simp] theorem emit_pending (o : Output) (s : State) : (emit o s).pending = s.pending := rfl
@[simp] theorem emit_outputs (o : Output) (s : State) : (emit o s).outputs = s.outputs ++ [o] := rfl

/-! ### present -/

@[simp] theorem present_crcAcc (e : Event) (s : State) : (present e s).crcAcc = s.crcAcc := rfl
@[simp] theorem present_crcSpec (e : Event) (s : State) : (present e s).crcSpec = s.crcSpec := rfl
@[simp] theorem present_hxPhase (e : Event) (s : State) : (present e s).hxPhase = s.hxPhase := rfl
@[simp] theorem present_hxNib (e : Event) (s : State) : (present e s).hxNib = s.hxNib := rfl
@[simp] theorem present_hxN (e : Event) (s : State) : (present e s).hxN = s.hxN := rfl
@[simp] theorem present_hxSum (e : Event) (s : State) : (present e s).hxSum = s.hxSum := rfl
@[simp] theorem present_hxBad (e : Event) (s : State) : (present e s).hxBad = s.hxBad := rfl
@[simp] theorem present_hxOvf (e : Event) (s : State) : (present e s).hxOvf = s.hxOvf := rfl
@[simp] theorem present_hxRb (e : Event) (s : State) : (present e s).hxRb = s.hxRb := rfl
@[simp] theorem present_draws (e : Event) (s : State) : (present e s).draws = s.draws := rfl
@[simp] theorem present_pending (e : Event) (s : State) : (present e s).pending = e :: s.pending := rfl
@[simp] theorem present_outputs (e : Event) (s : State) : (present e s).outputs = s.outputs := rfl

/-! ### resetBlock -/

@[simp] theorem resetBlock_crcAcc (s : State) : (resetBlock s).crcAcc = State.reset.crcAcc := rfl
@[simp] theorem resetBlock_crcSpec (s : State) : (resetBlock s).crcSpec = State.reset.crcSpec := rfl
@[simp] theorem resetBlock_hxPhase (s : State) : (resetBlock s).hxPhase = State.reset.hxPhase := rfl
@[simp] theorem resetBlock_hxNib (s : State) : (resetBlock s).hxNib = State.reset.hxNib := rfl
@[simp] theorem resetBlock_hxN (s : State) : (resetBlock s).hxN = State.reset.hxN := rfl
@[simp] theorem resetBlock_hxSum (s : State) : (resetBlock s).hxSum = State.reset.hxSum := rfl
@[simp] theorem resetBlock_hxBad (s : State) : (resetBlock s).hxBad = State.reset.hxBad := rfl
@[simp] theorem resetBlock_hxOvf (s : State) : (resetBlock s).hxOvf = State.reset.hxOvf := rfl
@[simp] theorem resetBlock_hxRb (s : State) : (resetBlock s).hxRb = State.reset.hxRb := rfl
@[simp] theorem resetBlock_draws (s : State) : (resetBlock s).draws = s.draws := rfl
@[simp] theorem resetBlock_pending (s : State) : (resetBlock s).pending = s.pending := rfl
@[simp] theorem resetBlock_outputs (s : State) : (resetBlock s).outputs = s.outputs := rfl

/-! ### toLineStart -/

@[simp] theorem toLineStart_crcAcc (s : State) : (toLineStart s).crcAcc = s.crcAcc := rfl
@[simp] theorem toLineStart_crcSpec (s : State) : (toLineStart s).crcSpec = s.crcSpec := rfl
@[simp] theorem toLineStart_hxPhase (s : State) : (toLineStart s).hxPhase = .seek := rfl
@[simp] theorem toLineStart_hxNib (s : State) : (toLineStart s).hxNib = s.hxNib := rfl
@[simp] theorem toLineStart_hxN (s : State) : (toLineStart s).hxN = s.hxN := rfl
@[simp] theorem toLineStart_hxSum (s : State) : (toLineStart s).hxSum = s.hxSum := rfl
@[simp] theorem toLineStart_hxBad (s : State) : (toLineStart s).hxBad = false := rfl
@[simp] theorem toLineStart_hxOvf (s : State) : (toLineStart s).hxOvf = false := rfl
@[simp] theorem toLineStart_hxRb (s : State) : (toLineStart s).hxRb = s.hxRb := rfl
@[simp] theorem toLineStart_draws (s : State) : (toLineStart s).draws = s.draws := rfl
@[simp] theorem toLineStart_pending (s : State) : (toLineStart s).pending = s.pending := rfl
@[simp] theorem toLineStart_outputs (s : State) : (toLineStart s).outputs = s.outputs := rfl

/-! ### drawByte -/

@[simp] theorem drawByte_crcAcc (s : State) : (drawByte s).2.crcAcc = s.crcAcc := rfl
@[simp] theorem drawByte_crcSpec (s : State) : (drawByte s).2.crcSpec = s.crcSpec := rfl
@[simp] theorem drawByte_hxPhase (s : State) : (drawByte s).2.hxPhase = s.hxPhase := rfl
@[simp] theorem drawByte_hxNib (s : State) : (drawByte s).2.hxNib = s.hxNib := rfl
@[simp] theorem drawByte_hxN (s : State) : (drawByte s).2.hxN = s.hxN := rfl
@[simp] theorem drawByte_hxSum (s : State) : (drawByte s).2.hxSum = s.hxSum := rfl
@[simp] theorem drawByte_hxBad (s : State) : (drawByte s).2.hxBad = s.hxBad := rfl
@[simp] theorem drawByte_hxOvf (s : State) : (drawByte s).2.hxOvf = s.hxOvf := rfl
@[simp] theorem drawByte_hxRb (s : State) : (drawByte s).2.hxRb = s.hxRb := rfl
@[simp] theorem drawByte_draws (s : State) : (drawByte s).2.draws = s.draws + 1 := rfl
@[simp] theorem drawByte_pending (s : State) : (drawByte s).2.pending = s.pending := rfl
@[simp] theorem drawByte_outputs (s : State) : (drawByte s).2.outputs = s.outputs := rfl

/-! ### drawHalf -/

@[simp] theorem drawHalf_crcAcc (s : State) : (drawHalf s).2.crcAcc = s.crcAcc := rfl
@[simp] theorem drawHalf_crcSpec (s : State) : (drawHalf s).2.crcSpec = s.crcSpec := rfl
@[simp] theorem drawHalf_hxPhase (s : State) : (drawHalf s).2.hxPhase = s.hxPhase := rfl
@[simp] theorem drawHalf_hxNib (s : State) : (drawHalf s).2.hxNib = s.hxNib := rfl
@[simp] theorem drawHalf_hxN (s : State) : (drawHalf s).2.hxN = s.hxN := rfl
@[simp] theorem drawHalf_hxSum (s : State) : (drawHalf s).2.hxSum = s.hxSum := rfl
@[simp] theorem drawHalf_hxBad (s : State) : (drawHalf s).2.hxBad = s.hxBad := rfl
@[simp] theorem drawHalf_hxOvf (s : State) : (drawHalf s).2.hxOvf = s.hxOvf := rfl
@[simp] theorem drawHalf_hxRb (s : State) : (drawHalf s).2.hxRb = s.hxRb := rfl
@[simp] theorem drawHalf_draws (s : State) : (drawHalf s).2.draws = s.draws + 1 := rfl
@[simp] theorem drawHalf_pending (s : State) : (drawHalf s).2.pending = s.pending := rfl
@[simp] theorem drawHalf_outputs (s : State) : (drawHalf s).2.outputs = s.outputs := rfl

/-! ### drawWord -/

@[simp] theorem drawWord_crcAcc (s : State) : (drawWord s).2.crcAcc = s.crcAcc := rfl
@[simp] theorem drawWord_crcSpec (s : State) : (drawWord s).2.crcSpec = s.crcSpec := rfl
@[simp] theorem drawWord_hxPhase (s : State) : (drawWord s).2.hxPhase = s.hxPhase := rfl
@[simp] theorem drawWord_hxNib (s : State) : (drawWord s).2.hxNib = s.hxNib := rfl
@[simp] theorem drawWord_hxN (s : State) : (drawWord s).2.hxN = s.hxN := rfl
@[simp] theorem drawWord_hxSum (s : State) : (drawWord s).2.hxSum = s.hxSum := rfl
@[simp] theorem drawWord_hxBad (s : State) : (drawWord s).2.hxBad = s.hxBad := rfl
@[simp] theorem drawWord_hxOvf (s : State) : (drawWord s).2.hxOvf = s.hxOvf := rfl
@[simp] theorem drawWord_hxRb (s : State) : (drawWord s).2.hxRb = s.hxRb := rfl
@[simp] theorem drawWord_draws (s : State) : (drawWord s).2.draws = s.draws + 1 := rfl
@[simp] theorem drawWord_pending (s : State) : (drawWord s).2.pending = s.pending := rfl
@[simp] theorem drawWord_outputs (s : State) : (drawWord s).2.outputs = s.outputs := rfl

end Sys2Proof.Laws
end

