-- ==== Sys2Proof/Laws/Ops.lean ====
section
/-! SUPPORT. What each shared operation can do, said once: the provers cite these instead of unfolding it. -/

namespace Sys2Proof.Laws

open Sys2Proof.Machine

@[simp] theorem andThen_next (s : State) (f : State → StepResult) : andThen (.next s) f = f s := rfl

@[simp] theorem andThen_fault (x : Fault) (f : State → StepResult) : andThen (.fault x) f = .fault x := rfl

@[simp] theorem andThen_refused (x : Refusal) (f : State → StepResult) : andThen (.refused x) f = .refused x := rfl

/-- What a digit does in phase SEEK and in phase SKIP: nothing. -/
theorem hxDigit_ignored (v : Nibble) {s : State} (h : s.hxPhase = .seek ∨ s.hxPhase = .skip) :
    hxDigit v s = .next s := by
  rcases h with h | h <;> simp [hxDigit, h]

/-- The first digit of a pair that fits is held. -/
theorem hxDigit_hi_held (v : Nibble) {s : State} (h : s.hxPhase = .hi) (hn : s.hxN.toNat < Config.hexCap) :
    hxDigit v s = .next (holdNibble v s) := by
  simp [hxDigit, h, hn]

/-- The first digit of a pair that does not fit raises OVERRUN. -/
theorem hxDigit_hi_full (v : Nibble) {s : State} (h : s.hxPhase = .hi) (hn : Config.hexCap ≤ s.hxN.toNat) :
    hxDigit v s = .next (raiseCause .overrun s) := by
  simp [hxDigit, h, Nat.not_lt.mpr hn]

/-- The second digit of a pair commits the byte. -/
theorem hxDigit_lo (v : Nibble) {s : State} (h : s.hxPhase = .lo) (hn : s.hxN.toNat < Config.hexCap) :
    hxDigit v s = .next (commitByte (byteOfPair s.hxNib v) s) := by
  simp [hxDigit, h, commit, hn]

/-- The second digit of a pair outside the buffer faults. -/
theorem hxDigit_lo_fault (v : Nibble) {s : State} (h : s.hxPhase = .lo) (hn : Config.hexCap ≤ s.hxN.toNat) :
    hxDigit v s = .fault .recordIndexOutOfRange := by
  simp [hxDigit, h, commit, Nat.not_lt.mpr hn]

/-- Everything a digit can do when it answers a next state. -/
theorem hxDigit_next_cases {v : Nibble} {s t : State} (h : hxDigit v s = .next t) :
    ((s.hxPhase = .seek ∨ s.hxPhase = .skip) ∧ t = s)
      ∨ (s.hxPhase = .hi ∧ s.hxN.toNat < Config.hexCap ∧ t = holdNibble v s)
      ∨ (s.hxPhase = .hi ∧ Config.hexCap ≤ s.hxN.toNat ∧ t = raiseCause .overrun s)
      ∨ (s.hxPhase = .lo ∧ s.hxN.toNat < Config.hexCap ∧ t = commitByte (byteOfPair s.hxNib v) s) := by
  rcases hp : s.hxPhase with _ | _ | _ | _
  · rw [hxDigit_ignored v (.inl hp)] at h; cases h; simp
  · rcases Nat.lt_or_ge s.hxN.toNat Config.hexCap with hn | hn
    · rw [hxDigit_hi_held v hp hn] at h; cases h; simp [hn]
    · rw [hxDigit_hi_full v hp hn] at h; cases h; simp [hn]
  · rcases Nat.lt_or_ge s.hxN.toNat Config.hexCap with hn | hn
    · rw [hxDigit_lo v hp hn] at h; cases h; simp [hn]
    · rw [hxDigit_lo_fault v hp hn] at h; cases h
  · rw [hxDigit_ignored v (.inr hp)] at h; cases h; simp

/-- Everything the marker and any other non-digit can do (R81, R87): the marker opens a record in SEEK, both are
malformed digits in HI and LO, neither does anything else. -/
theorem execHxSor_cases {s t : State} (h : execHxSor s = .next t) :
    (s.hxPhase = .seek ∧ t = startRecord s)
      ∨ ((s.hxPhase = .hi ∨ s.hxPhase = .lo) ∧ t = raiseCause .badDigit s)
      ∨ (s.hxPhase = .skip ∧ t = s) := by
  rcases hp : s.hxPhase with _ | _ | _ | _ <;> simp [execHxSor, hp, hxNonDigit] at h <;> subst h <;> simp

theorem execHxOther_cases {s t : State} (h : execHxOther s = .next t) :
    ((s.hxPhase = .seek ∨ s.hxPhase = .skip) ∧ t = s)
      ∨ ((s.hxPhase = .hi ∨ s.hxPhase = .lo) ∧ t = raiseCause .badDigit s) := by
  rcases hp : s.hxPhase with _ | _ | _ | _ <;> simp [execHxOther, hp, hxNonDigit] at h <;> subst h <;> simp

/-- The accumulator of a specified unit is read as it is. -/
theorem readAcc_spec {s : State} (h : s.crcSpec = true) : readAcc s = (s.crcAcc, s) := by simp [readAcc, h]

/-- The accumulator of an unspecified unit is read as a free value. -/
theorem readAcc_free {s : State} (h : s.crcSpec = false) :
    readAcc s = (Config.unspecWord s.draws, { s with draws := s.draws + 1 }) := by simp [readAcc, h, drawWord]

/-- `CRC.BYTE` always completes, and writes the accumulator and the count of free values at most. -/
theorem execCrcByte_eq (b : Byte) (s : State) :
    execCrcByte b s = .next { (readAcc s).2 with crcAcc := crcStep (readAcc s).1 b } := rfl

/-- What every operation is, by its class. -/
theorem exec_cases (i : Instr) (s : State) :
    (isDigitOp i = true ∧ isEolOp i = false ∧ unitOf i = .hex ∧ ∃ v, exec i s = hxDigit v s)
      ∨ (i = .hxSor ∧ exec i s = execHxSor s)
      ∨ (isEolOp i = true ∧ isDigitOp i = false ∧ unitOf i = .hex ∧ exec i s = .next (hxEndLine s))
      ∨ (classOf i = some .other ∧ unitOf i = .hex ∧ exec i s = execHxOther s)
      ∨ (unitOf i = .crc ∧ classOf i = none ∧ ∃ seed, i = .crcInit seed ∧ exec i s = execCrcInit seed s)
      ∨ (unitOf i = .crc ∧ classOf i = none ∧ ∃ x b, i = .crcByte x b ∧ exec i s = execCrcByte b s) := by
  cases i with
  | crcInit a => exact .inr (.inr (.inr (.inr (.inl ⟨rfl, rfl, a, rfl, rfl⟩))))
  | crcByte x b => exact .inr (.inr (.inr (.inr (.inr ⟨rfl, rfl, x, b, rfl, rfl⟩))))
  | hxSor => exact .inr (.inl ⟨rfl, rfl⟩)
  | hxEolLf => exact .inr (.inr (.inl ⟨rfl, rfl, rfl, rfl⟩))
  | hxEolCr => exact .inr (.inr (.inl ⟨rfl, rfl, rfl, rfl⟩))
  | hxDec07 v => exact .inl ⟨rfl, rfl, rfl, _, rfl⟩
  | hxDec89 v => exact .inl ⟨rfl, rfl, rfl, _, rfl⟩
  | hxAlphaA k => exact .inl ⟨rfl, rfl, rfl, _, rfl⟩
  | hxAlphaBC k v => exact .inl ⟨rfl, rfl, rfl, _, rfl⟩
  | hxAlphaDE k v => exact .inl ⟨rfl, rfl, rfl, _, rfl⟩
  | hxAlphaF k => exact .inl ⟨rfl, rfl, rfl, _, rfl⟩
  | hxOther c => exact .inr (.inr (.inr (.inl ⟨rfl, rfl, rfl⟩)))

/-- Reading a byte at the port: it, or a free value and one draw more. -/
theorem fixedOrFree_eq (b : Option Byte) (s : State) :
    fixedOrFree b s = (b.getD (Config.unspecByte s.draws), { s with draws := s.draws + if b.isSome then 0 else 1 }) := by
  cases b <;> rfl

/-- Below the count the byte held is what `rb_read` returns (R33). -/
theorem rbByte_held {s : State} {i : Nat} (hi : i < s.hxN.toNat) : rbByte s i = Memory.read s.hxRb i := by
  simp [rbByte, hi]

/-- At or above the count no byte is fixed (R33). -/
theorem rbByte_above {s : State} {i : Nat} (hi : s.hxN.toNat ≤ i) : rbByte s i = none := by
  simp [rbByte, Nat.not_lt.mpr hi]

/-- In SEEK a record view shows what `rb_read` returns (R93). -/
theorem viewByte_seek {s : State} (hp : s.hxPhase = .seek) (i : Nat) : viewByte s i = rbByte s i := by
  simp [viewByte, hp]

/-- At or above the count no view is fixed (R93, R139). -/
theorem viewByte_above {s : State} {i : Nat} (hi : s.hxN.toNat ≤ i) : viewByte s i = none := by
  simp [viewByte, rbByte_above hi]

/-- After a marker and before the line's end no view of a byte is fixed (R137, U3). -/
theorem viewByte_late {s : State} (hp : s.hxPhase ≠ .seek) (i : Nat) : viewByte s i = none := by
  simp [viewByte, hp]

/-- After a marker and before the line's end no record view is fixed (R137, U3). -/
theorem views_late {s : State} (hp : s.hxPhase ≠ .seek) :
    addressView s = none ∧ (∀ k, payloadByte s k = none) ∧ checksumView s = none := by
  simp [addressView, payloadByte, checksumView, viewByte_late hp]

/-- Reading the address: it, or one free value and one draw more. -/
theorem readRecAddr_eq (s : State) :
    readRecAddr s
      = ((addressView s).getD (Config.unspecHalf s.draws),
          { s with draws := s.draws + if (addressView s).isSome then 0 else 1 }) := by
  unfold readRecAddr
  cases addressView s <;> rfl

/-- The address is fixed where both its bytes are. -/
theorem addressView_fixed {s : State} {byte1 byte2 : Byte} (h1 : viewByte s 1 = some byte1)
    (h2 : viewByte s 2 = some byte2) : addressView s = some (addressOf byte1 byte2) := by
  simp [addressView, h1, h2]

/-- With fewer than three bytes no part of the address is fixed. -/
theorem addressView_short {s : State} (h : s.hxN.toNat ≤ 2) : addressView s = none := by
  simp [addressView, viewByte_above h]

/-- Reading `crc_out`: the accumulator as an operation would find it, and what that draws. -/
theorem readCrcOut_eq (s : State) : readCrcOut s = readAcc s := by
  simp [readCrcOut]

/-- A read of an output appends one value to the trace, and changes nothing else but the count of free values. -/
theorem readPort_next {p : Port} {s t : State} (h : readPort p s = .next t) :
    ∃ (n : Nat) (o : Output), t = { s with draws := n, outputs := s.outputs ++ [o] } := by
  cases p with
  | crcOut =>
    rcases hs : s.crcSpec with _ | _ <;>
      simp [readPort, readCrcOut, readAcc, hs, drawWord, emit] at h <;> subst h <;> exact ⟨_, _, rfl⟩
  | nbytes => simp only [readPort, emit] at h; cases h; exact ⟨_, _, rfl⟩
  | rbRead i =>
    simp only [readPort] at h
    split at h
    · simp only [readRb, fixedOrFree_eq, emit] at h; cases h; exact ⟨_, _, rfl⟩
    · cases h
  | recCount => simp only [readPort, readView, fixedOrFree_eq, emit] at h; cases h; exact ⟨_, _, rfl⟩
  | recAddr => simp only [readPort, readRecAddr_eq, emit] at h; cases h; exact ⟨_, _, rfl⟩
  | recType => simp only [readPort, readView, fixedOrFree_eq, emit] at h; cases h; exact ⟨_, _, rfl⟩
  | recPayload k => simp only [readPort, fixedOrFree_eq, emit] at h; cases h; exact ⟨_, _, rfl⟩
  | recChecksum => simp only [readPort, fixedOrFree_eq, emit] at h; cases h; exact ⟨_, _, rfl⟩

/-- A read is refused only where the port does not accept the index (R32), and never faults. -/
theorem readPort_stops {p : Port} {s : State} :
    (∀ f, readPort p s ≠ .fault f)
      ∧ ∀ x, readPort p s = .refused x → ∃ i, p = .rbRead i ∧ Config.hexCap ≤ i.toNat ∧ x = .rbIndexNotAccepted i := by
  cases p with
  | rbRead i =>
    simp only [readPort]
    split
    · exact ⟨fun f h => (nomatch h), fun x h => (nomatch h)⟩
    · next hi => exact ⟨fun f h => (nomatch h), fun x h => ⟨i, rfl, Nat.le_of_not_lt hi, by cases h; rfl⟩⟩
  | crcOut => exact ⟨fun f h => (nomatch h), fun x h => (nomatch h)⟩
  | nbytes => exact ⟨fun f h => (nomatch h), fun x h => (nomatch h)⟩
  | recCount => exact ⟨fun f h => (nomatch h), fun x h => (nomatch h)⟩
  | recAddr => exact ⟨fun f h => (nomatch h), fun x h => (nomatch h)⟩
  | recType => exact ⟨fun f h => (nomatch h), fun x h => (nomatch h)⟩
  | recPayload k => exact ⟨fun f h => (nomatch h), fun x h => (nomatch h)⟩
  | recChecksum => exact ⟨fun f h => (nomatch h), fun x h => (nomatch h)⟩

/-- What is taken next, and from which state. -/
theorem takeEvent_cases (s : State) :
    (s.pending = [] ∧ takeEvent s = none)
      ∨ ∃ e rest, s.pending = e :: rest ∧ takeEvent s = some (e, { s with pending := rest }) := by
  rcases h : s.pending with _ | ⟨e, rest⟩
  · exact .inl ⟨rfl, by simp [takeEvent, h]⟩
  · exact .inr ⟨e, rest, rfl, by simp [takeEvent, h]⟩

/-- Everything a step can be. -/
theorem step_cases (s : State) :
    (s.pending = [] ∧ step s = .next s)
      ∨ (∃ c rest, s.pending = .op c :: rest ∧ step s = exec (decode c) { s with pending := rest })
      ∨ (∃ p rest, s.pending = .read p :: rest ∧ step s = readPort p { s with pending := rest })
      ∨ ∃ rest, s.pending = .reset :: rest ∧ step s = .next (resetBlock { s with pending := rest }) := by
  rcases takeEvent_cases s with ⟨h, ht⟩ | ⟨e, rest, h, ht⟩
  · exact .inl ⟨h, by simp [step, ht]⟩
  · cases e with
    | op c => exact .inr (.inl ⟨c, rest, h, by simp [step, ht]⟩)
    | read p => exact .inr (.inr (.inl ⟨p, rest, h, by simp [step, ht]⟩))
    | reset => exact .inr (.inr (.inr ⟨rest, h, by simp [step, ht]⟩))

/-- Something presented is what is taken next, from the state before. -/
@[simp] theorem takeEvent_present (e : Event) (s : State) : takeEvent (present e s) = some (e, s) := rfl

end Sys2Proof.Laws
end

