-- ==== Sys2Proof/Laws/PerInstr.lean ====
section
/-! SUPPORT. Statements about every operation as syntax, one lemma for each constructor of `Instr`. -/

namespace Sys2Proof.Laws.CodeIsInItsClass

open Sys2Proof Sys2Proof.Machine

/-- The character of a well-formed operation of the HEX port lies in the ranges that R48 gives the operation's class,
although `encode` is written from the rows of R59. -/
def Statement (i : Instr) : Prop :=
  ∀ c : Byte, i.wellFormed = true → encode i = .hx c → classOf i = some (charClass c)

theorem crcInit (seed : Word) : Statement (.crcInit seed) := by
  intro c _ h
  cases h

theorem crcByte (ignored : BitVec 24) (b : Byte) : Statement (.crcByte ignored b) := by
  intro c _ h
  cases h

theorem hxSor : Statement .hxSor := by
  intro c _ h
  cases h
  decide

theorem hxEolLf : Statement .hxEolLf := by
  intro c _ h
  cases h
  decide

theorem hxEolCr : Statement .hxEolCr := by
  intro c _ h
  cases h
  decide

theorem hxDec07 (v : BitVec 3) : Statement (.hxDec07 v) := by
  intro c _ h
  cases h
  revert v
  decide

theorem hxDec89 (v : Bit) : Statement (.hxDec89 v) := by
  intro c _ h
  cases h
  revert v
  decide

theorem hxAlphaA (k : Bit) : Statement (.hxAlphaA k) := by
  intro c _ h
  cases h
  revert k
  decide

theorem hxAlphaBC (k v : Bit) : Statement (.hxAlphaBC k v) := by
  intro c _ h
  cases h
  revert k v
  decide

theorem hxAlphaDE (k v : Bit) : Statement (.hxAlphaDE k v) := by
  intro c _ h
  cases h
  revert k v
  decide

theorem hxAlphaF (k : Bit) : Statement (.hxAlphaF k) := by
  intro c _ h
  cases h
  revert k
  decide

theorem hxOther (c : Byte) : Statement (.hxOther c) := by
  intro c' w h
  cases h
  revert c
  decide

end Sys2Proof.Laws.CodeIsInItsClass
end

