-- ==== Sys2Proof/Machine/Environment.lean ====
section
/-! DEFINITION. The surrounding software as 45_environment_contract.md describes it: the Image Assembler and the Flash
Image Writer. 00_scope.md R5 leaves both OUT of the block; nothing of the block uses this file, and its contents are
assumptions about the environment (ENV) by which a claim on a transfer can be stated. Log 18. -/

namespace Sys2Proof.Machine

/-- The staging buffer's capacity (R109). -/
def stagingCap : Nat := 65536

/-- The Image Assembler: a cursor "always in `[0, 65536)`" and the staging bytes written so far (R109). Its initial
cursor is not in the source (91_not_in_source.md N16): it is the caller's to give. -/
structure Assembler where
  offset : Half
  staging : List Host.Cell
deriving DecidableEq, Repr

/-- What the assembler does with a line's result. -/
inductive Assembled where
  /-- It waits for the next line. -/
  | running (a : Assembler)
  /-- `(StagingBuffer, offset)` is handed to the Flash Image Writer; "this call does not return" (R108, R114). -/
  | handedOff (a : Assembler)
  /-- A Data record with `offset + rec_count > 65536`: "a fault, not ... a wrapped copy" (R110). -/
  | stagingOverflow
deriving DecidableEq, Repr

/-- Bytes copied to consecutive places of the staging buffer (R108). -/
def copyBytes : List Byte → Nat → List Host.Cell → List Host.Cell
  | [], _, m => m
  | b :: bs, at_, m => copyBytes bs (at_ + 1) (Memory.write m at_ b)

/-- The assembler's dispatch on the record type (R108, R110). The progress notification is left out (R116: "safe to
ignore or drop"). -/
def assembleRecord (r : HexRecord) (a : Assembler) : Assembled :=
  match recordTypeOf r.recordType with
  | .data =>
    if stagingCap < a.offset.toNat + r.byteCount.toNat then .stagingOverflow
    else
      .running
        { offset := a.offset + r.byteCount.zeroExtend 16
          staging := copyBytes r.payload a.offset.toNat a.staging }
  | .endOfFile => .handedOff a
  | .extendedLinearAddress => .running { a with offset := 0#16 }
  | .extendedSegmentAddress => .running a
  | .startSegmentAddress => .running a
  | .startLinearAddress => .running a
  | .unnamed _ => .running a

/-- The assembler's reaction to a line: nothing on a rejection (R107), the dispatch on a record (R108). -/
def assembleLine (result : Except (BitVec 5) HexRecord) (a : Assembler) : Assembled :=
  match result with
  | .ok r => assembleRecord r a
  | .error _ => .running a

/-- The CRC the Flash Image Writer computes over the payload (R111). -/
def imageCrc (payload : List Byte) : Word := crcResult (crc32 payload Config.crcSeedEnv)

/-- A 32-bit number, low byte first (R112). -/
def littleEndian (w : Word) : List Byte :=
  [w.extractLsb' 0 8, w.extractLsb' 8 8, w.extractLsb' 16 8, w.extractLsb' 24 8]

/-- The flash image header `[magic1][magic2][length][crc32]` (R112); the magic values are not in the source
(91_not_in_source.md N7), so they are operands. -/
def imageHeader (magic1 magic2 : Word) (payload : List Byte) : List Byte :=
  littleEndian magic1 ++ littleEndian magic2 ++ littleEndian (BitVec.ofNat 32 payload.length)
    ++ littleEndian (imageCrc payload)

/-- The header's size, 4 + 4 + 4 + 4 (R112). -/
def headerSize : Nat := 16

/-- `totalLength` (R113 step 1). -/
def totalLength (payloadLength : Nat) : Nat := headerSize + payloadLength

/-- `eraseLength`: `totalLength` rounded up to the next 4096-byte boundary (R113 step 1). -/
def eraseLength (payloadLength : Nat) : Nat := (totalLength payloadLength + 4095) / 4096 * 4096

end Sys2Proof.Machine
end

