-- ==== Sys2Proof/Tests/Slice0.lean ====
section
/-! SUPPORT. The model's own tests. Words are written out bit by bit from 30_encoding.md R46, R59 and
opcode_table.json; expected results are those of 95_test_vectors.md or follow by hand from the rule named. Every
statement with hypotheses has a witness here. -/

namespace Sys2Proof.Tests

open Sys2Proof Sys2Proof.Machine

/-! ## WellFormed: an ill-formed term for each row that the default row must leave alone -/

theorem test_wf_refuses_marker : (Instr.hxOther 0x3A#8).wellFormed = false := by decide
theorem test_wf_refuses_lf : (Instr.hxOther 0x0A#8).wellFormed = false := by decide
theorem test_wf_refuses_cr : (Instr.hxOther 0x0D#8).wellFormed = false := by decide
theorem test_wf_refuses_digit_0 : (Instr.hxOther 0x30#8).wellFormed = false := by decide
theorem test_wf_refuses_digit_9 : (Instr.hxOther 0x39#8).wellFormed = false := by decide
theorem test_wf_refuses_letter_a : (Instr.hxOther 0x61#8).wellFormed = false := by decide
theorem test_wf_refuses_letter_C : (Instr.hxOther 0x43#8).wellFormed = false := by decide
theorem test_wf_refuses_letter_d : (Instr.hxOther 0x64#8).wellFormed = false := by decide
theorem test_wf_refuses_letter_F : (Instr.hxOther 0x46#8).wellFormed = false := by decide
/-- R48: `G`, NUL and `0xBA` (a `:` with its top bit set) are other characters. -/
theorem test_wf_takes_others :
    (Instr.hxOther 0x47#8).wellFormed = true ∧ (Instr.hxOther 0x00#8).wellFormed = true
      ∧ (Instr.hxOther 0xBA#8).wellFormed = true := by decide

/-! ## Decode: one word for each constructor -/

theorem test_decode_crc_init :
    decode (.crc 0b0_10000000_00000000_00000000_00000001#33) = .crcInit 0x80000001#32 := by decide
theorem test_decode_crc_byte :
    decode (.crc 0b1_10101011_11001101_11101111_00110001#33) = .crcByte 0xABCDEF#24 0x31#8 := by decide
theorem test_decode_sor : decode (.hx 0b00111010#8) = .hxSor := by decide
theorem test_decode_lf : decode (.hx 0b00001010#8) = .hxEolLf := by decide
theorem test_decode_cr : decode (.hx 0b00001101#8) = .hxEolCr := by decide
theorem test_decode_digit_6 : decode (.hx 0b00110110#8) = .hxDec07 0b110#3 := by decide
theorem test_decode_digit_9 : decode (.hx 0b00111001#8) = .hxDec89 0b1#1 := by decide
theorem test_decode_letter_a : decode (.hx 0b01100001#8) = .hxAlphaA 0b1#1 := by decide
theorem test_decode_letter_C : decode (.hx 0b01000011#8) = .hxAlphaBC 0b0#1 0b1#1 := by decide
theorem test_decode_letter_d : decode (.hx 0b01100100#8) = .hxAlphaDE 0b1#1 0b0#1 := by decide
theorem test_decode_letter_F : decode (.hx 0b01000110#8) = .hxAlphaF 0b0#1 := by decide
theorem test_decode_space : decode (.hx 0b00100000#8) = .hxOther 0x20#8 := by decide

/-- A number that is no word of a port is rejected by name (R45). -/
theorem test_not_a_word :
    commandOfWord 16 0x3A = .error (.noSuchWidth 16) ∧ commandOfWord 8 0x13A = .error (.bitsAboveWord 0x13A)
      ∧ commandOfWord 40 0x2FFFFFFFF = .error (.bitsAboveWord 0x2FFFFFFFF) := ⟨rfl, rfl, rfl⟩

/-- Every character: the code of its operation is the character (R59). -/
theorem test_every_character_round_trips : ∀ c : Byte, encode (decode (.hx c)) = .hx c := by decide

/-! ## One step of each operation -/

/-- A small state of the HEX unit: phase, held digit, count, sum and the bytes of the buffer. -/
def hexState (p : Phase) (nibble : Nibble) (n : Count) (sum : Byte) (rb : Memory) : State :=
  { State.reset with hxPhase := p, hxNib := nibble, hxN := n, hxSum := sum, hxRb := rb }

/-- A state in SKIP with one of the flags set. -/
def skipState (bad : Bool) (n : Count) : State :=
  { hexState .skip 0#4 n 0#8 [] with hxBad := bad, hxOvf := !bad }

/-- A state in which `crc_acc` is specified. -/
def crcState (a : Word) : State := { State.reset with crcAcc := a, crcSpec := true }

/-- The registers `hx_phase, hx_nib, hx_n, hx_sum, hx_bad, hx_ovf`, as numbers and flags. -/
structure HexRegs where
  phase : Phase
  held : Nat
  count : Nat
  sum : Nat
  bad : Bool
  ovf : Bool
deriving DecidableEq

/-- The registers of the HEX unit after an operation. -/
def hexRegs (r : StepResult) : Option HexRegs :=
  match r with
  | .next s => some ⟨s.hxPhase, s.hxNib.toNat, s.hxN.toNat, s.hxSum.toNat, s.hxBad, s.hxOvf⟩
  | _ => none

/-- What was put out. -/
def outputsOf (r : StepResult) : Option (List Output) :=
  match r with
  | .next s => some s.outputs
  | _ => none

/-- `crc_acc` after an operation, where it is specified. -/
def accOf (r : StepResult) : Option Word :=
  match r with
  | .next s => if s.crcSpec then some s.crcAcc else none
  | _ => none

/-- 95_test_vectors.md section 2.2: `0x012345678` sets `crc_acc = 0x12345678`. -/
theorem test_crc_init : accOf (step (State.reset.withFetchWord 40 0x012345678)) = some 0x12345678#32 := by decide
/-- Section 2.2: the first byte of "123456789". -/
theorem test_crc_byte :
    accOf (step ((crcState 0xFFFFFFFF#32).withFetchWord 40 0x1ABCDEF31)) = some 0x9EFBCF93#32 := by decide
/-- Section 2.2: `crc_step(0x00000000, 0x80)`. -/
theorem test_crc_byte_top : accOf (exec (.crcByte 0#24 0x80#8) (crcState 0#32)) = some 0x690CE0EE#32 := by decide
/-- Section 2.1, one round. -/
theorem test_crc_round :
    crcRound 0x7FFFFFFF#32 = 0xFFFFFFFE#32 ∧ crcRound 0x80000001#32 = 0x04C11DB5#32
      ∧ crcRound 0xCEFFFFFF#32 = 0x993EE249#32 := by decide

/-- R81 in SEEK. -/
theorem test_sor_starts :
    hexRegs (step ((hexState .seek 3#4 9#9 7#8 []).withFetchWord 8 0x3A)) = some ⟨.hi, 3, 0, 0, false, false⟩ := by
  decide
/-- R81 in LO. -/
theorem test_sor_second : hexRegs (exec .hxSor (hexState .lo 3#4 2#9 7#8 [])) = some ⟨.skip, 3, 2, 7, true, false⟩ := by
  decide
/-- R88, R89: `:` alone is `EMPTY`. -/
theorem test_lf_empty :
    outputsOf (exec .hxEolLf (hexState .hi 0#4 0#9 0#8 []))
      = some [.verdict { valid := false, err := 0b01000#5, nbytes := 0#9 }] := by decide
/-- R88: the terminator leaves the line-start state and keeps count and sum. -/
theorem test_lf_returns :
    hexRegs (exec .hxEolLf (skipState true 4#9)) = some ⟨.seek, 0, 4, 0, false, false⟩ := by decide
/-- R89: a held digit and a wrong sum set bits 1 and 4. -/
theorem test_cr_two_causes :
    outputsOf (exec .hxEolCr (hexState .lo 1#4 2#9 1#8 []))
      = some [.verdict { valid := false, err := 0b10010#5, nbytes := 2#9 }] := by decide
/-- R89, R122: no marker. -/
theorem test_cr_no_start :
    outputsOf (exec .hxEolCr (hexState .seek 1#4 8#9 0#8 []))
      = some [.verdict { valid := false, err := 0b00001#5, nbytes := 0#9 }] := by decide
/-- R84: the high digit `5` is held. -/
theorem test_digit_5_high : hexRegs (exec (.hxDec07 5#3) (hexState .hi 0#4 3#9 9#8 [])) = some ⟨.lo, 5, 3, 9, false, false⟩ := by
  decide
/-- R84, R85: the low digit `7` after `E` makes `0xE7`. -/
theorem test_digit_7_low :
    hexRegs (exec (.hxDec07 7#3) (hexState .lo 0xE#4 1#9 0x20#8 [(0, 0x20#8)])) = some ⟨.hi, 14, 2, 7, false, false⟩ := by
  decide
/-- R84, R125: the 262nd byte is an overrun at its high digit. -/
theorem test_digit_9_overrun :
    hexRegs (exec (.hxDec89 1#1) (hexState .hi 0#4 261#9 9#8 [])) = some ⟨.skip, 0, 261, 9, false, true⟩ := by decide
/-- R84: `8` is 8. -/
theorem test_digit_8 : hexRegs (exec (.hxDec89 0#1) (hexState .hi 0#4 260#9 9#8 [])) = some ⟨.lo, 8, 260, 9, false, false⟩ := by
  decide
/-- R49: both cases of A are 10. -/
theorem test_letter_A :
    hexRegs (exec (.hxAlphaA 0#1) (hexState .hi 0#4 0#9 0#8 [])) = some ⟨.lo, 10, 0, 0, false, false⟩
      ∧ hexRegs (exec (.hxAlphaA 1#1) (hexState .hi 0#4 0#9 0#8 [])) = some ⟨.lo, 10, 0, 0, false, false⟩ := by decide
/-- R49: `C` is 12. -/
theorem test_letter_C : hexRegs (exec (.hxAlphaBC 0#1 1#1) (hexState .hi 0#4 0#9 0#8 [])) = some ⟨.lo, 12, 0, 0, false, false⟩ := by
  decide
/-- R49: `d` is 13. -/
theorem test_letter_d : hexRegs (exec (.hxAlphaDE 1#1 0#1) (hexState .hi 0#4 0#9 0#8 [])) = some ⟨.lo, 13, 0, 0, false, false⟩ := by
  decide
/-- R85: the last byte of a full buffer; `F` after `F` is `0xFF`, and the sum wraps. -/
theorem test_letter_F_last :
    hexRegs (exec (.hxAlphaF 0#1) (hexState .lo 0xF#4 260#9 1#8 [])) = some ⟨.hi, 15, 261, 0, false, false⟩ := by decide
/-- Log 10: a commit at an index the buffer does not have is a fault. -/
theorem test_commit_outside_buffer :
    exec (.hxAlphaF 1#1) (hexState .lo 0#4 261#9 0#8 []) = .fault .recordIndexOutOfRange := rfl
/-- R87. -/
theorem test_other_in_hi : hexRegs (exec (.hxOther 0x20#8) (hexState .hi 2#4 1#9 5#8 [])) = some ⟨.skip, 2, 1, 5, true, false⟩ := by
  decide
/-- R87. -/
theorem test_other_in_seek : hexRegs (exec (.hxOther 0x20#8) State.reset) = some ⟨.seek, 0, 0, 0, false, false⟩ := by decide

/-- The line `:00000001FF` (PFL's Scenario 2). -/
def eofLine : List Byte :=
  [0x3A#8, 0x30#8, 0x30#8, 0x30#8, 0x30#8, 0x30#8, 0x30#8, 0x30#8, 0x31#8, 0x46#8, 0x46#8]

/-- PFL's Scenario 2: an end-of-file record, accepted with five bytes. -/
theorem test_scenario_2 :
    outputsOf (performAll (hxLine eofLine) State.reset)
      = some [.verdict { valid := true, err := 0#5, nbytes := 5#9 }] := by decide

/-- R21, R33, R93: reads below the count return the bytes held. -/
theorem test_reads :
    outputsOf (readPort .recAddr (hexState .seek 0#4 3#9 0#8 [(0, 2#8), (1, 0x12#8), (2, 0x34#8)]))
        = some [.recAddr 0x1234#16]
      ∧ outputsOf (readPort .recChecksum (hexState .seek 0#4 3#9 0#8 [(0, 2#8), (1, 0x12#8), (2, 0x34#8)]))
        = some [.recChecksum 0x34#8] := by decide

/-- 95_test_vectors.md Program 5 step 11: after `:05FB` the whole of `rec_addr` is `?` (R93, R139). -/
theorem test_short_address :
    addressView (hexState .seek 0#4 2#9 0#8 [(0, 5#8), (1, 0xFB#8)]) = none
      ∧ addressView (hexState .seek 0#4 3#9 0#8 [(0, 5#8), (1, 0xFB#8), (2, 0#8)]) = some 0xFB00#16 := by decide

/-- R137, 95_test_vectors.md Program 5 steps 9 and 10: after the marker neither `rb_read` nor a view shows the old record;
with a byte of the new line committed `rb_read` returns it (R33), and a view shows it at the line's end. -/
theorem test_late_read :
    rbByte (hexState .hi 0#4 0#9 0#8 [(0, 3#8)]) 0 = none ∧ viewByte (hexState .hi 0#4 0#9 0#8 [(0, 3#8)]) 0 = none
      ∧ rbByte (hexState .hi 0#4 1#9 5#8 [(0, 5#8)]) 0 = some 5#8
      ∧ viewByte (hexState .hi 0#4 1#9 5#8 [(0, 5#8)]) 0 = none
      ∧ viewByte (hexState .seek 0#4 1#9 5#8 [(0, 5#8)]) 0 = some 5#8 := by decide

/-- PFL's Scenario 4, and the table of 95_test_vectors.md for the erase length. -/
theorem test_erase_length : [0, 1, 4080, 4081, 4096].map eraseLength = [4096, 4096, 4096, 8192, 8192] := by decide

/-- R110: a data record that would pass the staging buffer's end is a fault of the assembler, one that reaches it is
not; R108: the end-of-file record hands the buffer over. -/
theorem test_assembler :
    assembleRecord { byteCount := 2#8, address := 0#16, recordType := 0#8, payload := [1#8, 2#8] }
          { offset := 0xFFFF#16, staging := [] } = .stagingOverflow
      ∧ assembleRecord { byteCount := 2#8, address := 0#16, recordType := 0#8, payload := [1#8, 2#8] }
          { offset := 0xFFFE#16, staging := [] }
          = .running { offset := 0#16, staging := [(0xFFFE, 1#8), (0xFFFF, 2#8)] }
      ∧ assembleRecord { byteCount := 0#8, address := 0#16, recordType := 1#8, payload := [] }
          { offset := 2#16, staging := [] } = .handedOff { offset := 2#16, staging := [] } := by decide

/-! ## Witnesses: concrete states and operands that meet the hypotheses of each statement -/

theorem witness_EncodingsAndOperationsCorrespond :
    (Instr.hxOther 0x3B#8).wellFormed = true ∧ (Instr.crcByte 0xFFFFFF#24 0#8).wellFormed = true := by decide

theorem witness_CharacterRowsSelectOperations :
    0x3A#8 &&& 0xFF#8 = 0x3A#8 ∧ 0x0A#8 &&& 0xFF#8 = 0x0A#8 ∧ 0x0D#8 &&& 0xFF#8 = 0x0D#8
      ∧ 0x37#8 &&& 0xF8#8 = 0x30#8 ∧ 0x38#8 &&& 0xFE#8 = 0x38#8 ∧ 0x61#8 &&& 0xDF#8 = 0x41#8
      ∧ 0x63#8 &&& 0xDE#8 = 0x42#8 ∧ 0x44#8 &&& 0xDE#8 = 0x44#8 ∧ 0x66#8 &&& 0xDF#8 = 0x46#8
      ∧ isOtherCode 0x40#8 = true := by decide

theorem witness_NibbleOfCharacter :
    (0x30 ≤ (0x39#8).toNat ∧ (0x39#8).toNat ≤ 0x39) ∧ (0x41 ≤ (0x46#8).toNat ∧ (0x46#8).toNat ≤ 0x46)
      ∧ (0x61 ≤ (0x66#8).toNat ∧ (0x66#8).toNat ≤ 0x66) := by decide

theorem witness_CrcRoundShiftsThenFolds :
    (0x80000000#32).getLsbD 31 = true ∧ (0x7FFFFFFF#32).getLsbD 31 = false := by decide

theorem witness_CrcByteFoldsOneByte : (crcState 1#32).crcSpec = true ∧ State.reset.crcSpec = false := by decide

theorem witness_CrcSingleBitFlipChangesResult :
    ([0x31#8, 0x32#8] : List Byte)[1]? = some 0x32#8 ∧ 7 < 8 := by decide

theorem witness_MarkerByPhase :
    State.reset.hxPhase = .seek ∧ (hexState .hi 0#4 0#9 0#8 []).hxPhase = .hi
      ∧ (hexState .lo 0#4 0#9 0#8 []).hxPhase = .lo ∧ (skipState true 0#9).hxPhase = .skip := by decide

/-- The clauses of `DigitEffect`, at the boundary 261 of the count. -/
theorem witness_DecimalDigitByPhase :
    State.reset.hxPhase = .seek
      ∧ ((hexState .hi 0#4 260#9 0#8 []).hxPhase = .hi ∧ (hexState .hi 0#4 260#9 0#8 []).hxN.toNat < 261)
      ∧ ((hexState .hi 0#4 261#9 0#8 []).hxPhase = .hi ∧ 261 ≤ (hexState .hi 0#4 261#9 0#8 []).hxN.toNat)
      ∧ ((hexState .lo 0#4 260#9 0#8 []).hxPhase = .lo ∧ (hexState .lo 0#4 260#9 0#8 []).hxN.toNat < 261)
      ∧ (skipState false 261#9).hxPhase = .skip := by decide

/-- The same clauses: `DigitEffect` has the hypotheses of the decimal digits. -/
theorem witness_LetterDigitByPhase :
    State.reset.hxPhase = .seek
      ∧ ((hexState .hi 9#4 0#9 0#8 []).hxPhase = .hi ∧ (hexState .hi 9#4 0#9 0#8 []).hxN.toNat < 261)
      ∧ ((hexState .hi 9#4 511#9 0#8 []).hxPhase = .hi ∧ 261 ≤ (hexState .hi 9#4 511#9 0#8 []).hxN.toNat)
      ∧ ((hexState .lo 9#4 0#9 0#8 []).hxPhase = .lo ∧ (hexState .lo 9#4 0#9 0#8 []).hxN.toNat < 261)
      ∧ (skipState true 0#9).hxPhase = .skip := by decide

/-- The last index of the buffer, a digit and another operation, and a memory in canonical form. -/
theorem witness_CommitsStayInBuffer :
    HeldDigitFits (hexState .lo 0#4 260#9 0#8 [(259, 7#8)]) ∧ HeldDigitFits (hexState .hi 0#4 261#9 0#8 [])
      ∧ isDigitOp (.hxAlphaF 1#1) = true ∧ (hexState .lo 0#4 260#9 0#8 [(259, 7#8)]).hxPhase = .lo
      ∧ isDigitOp .hxSor = false ∧ Memory.wf (hexState .lo 0#4 260#9 0#8 [(259, 7#8)]).hxRb := by decide

theorem witness_CommitAddsModulo256 : (hexState .lo 0#4 260#9 0xFF#8 []).hxN.toNat < 261 := by decide

theorem witness_SumDetectsSingleByteErrors :
    List.Perm [1#8, 2#8] [2#8, 1#8] ∧ ([1#8, 2#8] : List Byte)[0]? = some 1#8 ∧ 3#8 ≠ 1#8 := by decide

theorem witness_OtherCharacterByPhase :
    State.reset.hxPhase = .seek ∧ (hexState .hi 0#4 261#9 0#8 []).hxPhase = .hi
      ∧ (hexState .lo 0#4 1#9 0#8 []).hxPhase = .lo ∧ (skipState false 261#9).hxPhase = .skip := by decide

/-- `TerminatorEmitsVerdict`: both clauses on the count. -/
theorem witness_TerminatorEmitsVerdict :
    (hexState .hi 0#4 261#9 0#8 []).hxPhase ≠ .seek ∧ State.reset.hxPhase = .seek := by decide

theorem witness_NineCauseMasks :
    BlockInv (hexState .lo 0x5#4 1#9 0x20#8 [(0, 0x20#8)])
      ∧ errMask (hexState .lo 0x5#4 1#9 0x20#8 [(0, 0x20#8)]) = 0x12#5 := by decide

theorem witness_SecondTerminatorIsNoStart : isEolOp .hxEolCr = true ∧ isEolOp .hxEolLf = true := by decide

/-- A state with a record in the buffer, in which reset comes next. -/
def resetPending : State :=
  { hexState .hi 0#4 1#9 0x20#8 [(0, 0x20#8)] with pending := [.reset, .op (.hx 0x3A#8)] }

theorem witness_ResetValues : resetPending.pending = .reset :: [.op (.hx 0x3A#8)] := by decide

/-- A state in which the low digit `5` comes next. -/
def digitPending : State :=
  { hexState .lo 0x2#4 0#9 0#8 [] with pending := [.op (.hx 0x35#8)] }

theorem witness_StepKeepsInvariant :
    BlockInv digitPending
      ∧ step digitPending = .next (hexState .hi 0x2#4 1#9 0x25#8 [(0, 0x25#8)]) :=
  ⟨by decide, rfl⟩

/-- A state in which a client reads the first index that the port does not accept. -/
def readOutside : State := { State.reset with pending := [.read (.rbRead 261#9)] }

theorem witness_OperationsAreTotal :
    BlockInv readOutside ∧ step readOutside = .refused (.rbIndexNotAccepted 261#9) := ⟨by decide, rfl⟩

/-- A state in which `crc_out` is read before the first `CRC.INIT`, and reset comes after. -/
def readFirst : State := { State.reset with pending := [.read .crcOut, .reset] }

theorem witness_StepRunsThePresentedOperation :
    digitPending.pending = .op (.hx 0x35#8) :: [] ∧ readOutside.pending = .read (.rbRead 261#9) :: []
      ∧ readFirst.pending = .read .crcOut :: [.reset] ∧ (Instr.hxDec07 5#3).wellFormed = true
      ∧ decodeTableWord 8 0x35 = some (.hxDec07 5#3) ∧ State.reset.pending = [] := by decide

theorem witness_UnitsShareNoState :
    (exec .hxSor State.reset = .next (hexState .hi 0#4 0#9 0#8 []) ∧ unitOf .hxSor = .hex)
      ∧ (exec (.crcInit 5#32) State.reset = .next (crcState 5#32) ∧ unitOf (.crcInit 5#32) = .crc) :=
  ⟨⟨rfl, rfl⟩, rfl, rfl⟩

theorem witness_UnitsCommute : unitOf (.crcByte 0#24 1#8) = .crc ∧ unitOf .hxEolLf = .hex := by decide

theorem witness_OnlyTerminatorsEmit :
    (exec .hxSor State.reset = .next (hexState .hi 0#4 0#9 0#8 []) ∧ isEolOp .hxSor = false)
      ∧ (exec .hxEolCr State.reset
            = .next { State.reset with outputs := [.verdict { valid := false, err := 1#5, nbytes := 0#9 }] }
          ∧ isEolOp .hxEolCr = true) :=
  ⟨⟨rfl, rfl⟩, rfl, rfl⟩

/-- Each clause of `PhaseTransitions`: to SEEK, out of SEEK, out of SKIP, into LO, and from LO to HI. -/
theorem witness_PhaseTransitions :
    hexRegs (exec .hxEolLf (skipState true 0#9)) = some ⟨.seek, 0, 0, 0, false, false⟩
      ∧ hexRegs (exec .hxSor State.reset) = some ⟨.hi, 0, 0, 0, false, false⟩
      ∧ hexRegs (exec (.hxAlphaA 0#1) (hexState .hi 0#4 0#9 0#8 [])) = some ⟨.lo, 10, 0, 0, false, false⟩
      ∧ hexRegs (exec (.hxAlphaA 0#1) (hexState .lo 0#4 0#9 0#8 [])) = some ⟨.hi, 0, 1, 10, false, false⟩ := by decide

/-- Each clause of `RegisterWriters`: the accumulator, the phase, the held digit, count, sum and buffer (by the marker and by a
low digit), and the two flags set and cleared. -/
theorem witness_RegisterWriters :
    accOf (exec (.crcInit 7#32) (crcState 0#32)) = some 7#32
      ∧ hexRegs (exec (.hxDec07 5#3) (hexState .hi 0#4 0#9 0#8 [])) = some ⟨.lo, 5, 0, 0, false, false⟩
      ∧ hexRegs (exec .hxSor (hexState .seek 0#4 4#9 1#8 [])) = some ⟨.hi, 0, 0, 0, false, false⟩
      ∧ hexRegs (exec (.hxDec07 5#3) (hexState .lo 0#4 0#9 0#8 [])) = some ⟨.hi, 0, 1, 5, false, false⟩
      ∧ hexRegs (exec .hxSor (hexState .hi 0#4 0#9 0#8 [])) = some ⟨.skip, 0, 0, 0, true, false⟩
      ∧ hexRegs (exec (.hxDec07 5#3) (hexState .hi 0#4 261#9 0#8 [])) = some ⟨.skip, 0, 261, 0, false, true⟩
      ∧ hexRegs (exec .hxEolLf (skipState true 0#9)) = some ⟨.seek, 0, 0, 0, false, false⟩
      ∧ hexRegs (exec .hxEolLf (skipState false 261#9)) = some ⟨.seek, 0, 261, 0, false, false⟩ := by decide

/-- Two states that differ in the accumulator, the held digit and a byte of the buffer, all unspecified, while the
accumulator is read next. -/
theorem witness_UnspecifiedStorageIsUnobservable :
    SameSpecified { State.reset with pending := [.read .crcOut] }
      { State.reset with pending := [.read .crcOut], crcAcc := 9#32, hxNib := 7#4, hxRb := [(0, 1#8)] } := by
  refine ⟨rfl, fun h => ?_, rfl, fun h => ?_, rfl, rfl, rfl, rfl, fun i h => ?_, rfl, rfl, rfl⟩
  · exact absurd h (by decide)
  · exact absurd h (by decide)
  · exact absurd h (Nat.not_lt_zero i)

theorem witness_ReadsChangeNoBlockState :
    (∀ i : Count, Port.rbRead 260#9 = .rbRead i → i.toNat < 261)
      ∧ (∀ i : Count, Port.recType = .rbRead i → i.toNat < 261)
      ∧ Port.rbRead 261#9 = .rbRead 261#9 ∧ 261 ≤ (261#9).toNat := by decide

theorem witness_CrcOutReadPort : (crcState 1#32).crcSpec = true ∧ State.reset.crcSpec = false := by decide

/-- Both clauses, at the boundaries of the count and of the buffer, and in the middle of a line. -/
theorem witness_RecordBufferReadPort :
    ((0#9).toNat < (hexState .lo 0#4 1#9 5#8 [(0, 5#8)]).hxN.toNat
        ∧ Memory.read (hexState .lo 0#4 1#9 5#8 [(0, 5#8)]).hxRb (0#9).toNat = some 5#8)
      ∧ ((0#9).toNat < (hexState .seek 0#4 1#9 0#8 [(0, 5#8)]).hxN.toNat ∧ (0#9).toNat < 261
        ∧ Memory.read (hexState .seek 0#4 1#9 0#8 [(0, 5#8)]).hxRb (0#9).toNat = some 5#8)
      ∧ ((hexState .seek 0#4 1#9 0#8 [(0, 5#8)]).hxN.toNat ≤ (1#9).toNat ∧ (1#9).toNat < 261)
      ∧ ((hexState .seek 0#4 1#9 0#8 [(0, 5#8)]).hxN.toNat ≤ (260#9).toNat ∧ (260#9).toNat < 261) := by decide

/-- The bytes of a data record with one byte of payload. -/
def sixBytes : List Byte := [1#8, 0x12#8, 0x34#8, 0#8, 0xAA#8, 0x0F#8]

/-- The buffer after it. -/
def sixByteState : State :=
  hexState .seek 0#4 6#9 0#8 [(0, 1#8), (1, 0x12#8), (2, 0x34#8), (3, 0#8), (4, 0xAA#8), (5, 0x0F#8)]

theorem witness_RecordViewsShowFields :
    sixByteState.hxPhase = .seek ∧ (∀ i < sixByteState.hxN.toNat, Memory.read sixByteState.hxRb i = sixBytes[i]?)
      ∧ sixBytes.length = sixByteState.hxN.toNat
      ∧ (sixBytes[0]? = some 1#8 ∧ (0#8).toNat < (1#8).toNat ∧ sixBytes[4 + (0#8).toNat]? = some 0xAA#8)
      ∧ (sixBytes[1]? = some 0x12#8 ∧ sixBytes[2]? = some 0x34#8) ∧ sixBytes[3]? = some 0#8
      ∧ sixBytes.getLast? = some 0x0F#8 := by decide

/-- Each clause, at its boundary: no byte, two bytes (the record of `:05FB`), three bytes, and the largest index of a
payload byte. -/
theorem witness_ShortRecordViewsAreFree :
    State.reset.hxN.toNat = 0 ∧ (hexState .seek 0#4 2#9 0#8 [(0, 5#8), (1, 0xFB#8)]).hxN.toNat ≤ 2
      ∧ (hexState .seek 0#4 3#9 0#8 [(0, 0#8), (1, 0#8), (2, 0#8)]).hxN.toNat ≤ 3
      ∧ (hexState .seek 0#4 259#9 0#8 []).hxN.toNat ≤ 4 + (255#8).toNat := by decide

/-- The middle of a line with a byte of it committed. -/
theorem witness_LateReadsAreFree : (hexState .hi 0#4 1#9 5#8 [(0, 5#8), (1, 0xFB#8)]).hxPhase ≠ .seek := by decide

theorem witness_RecordHeldUntilNextMarker :
    sixByteState.hxPhase = .seek ∧ (0x35#8 ≠ 0x3A#8) ∧ (0x0A#8 ≠ 0x3A#8) := by decide

theorem witness_PairRecoversByte :
    LineStart sixByteState ∧ nib 0x66#8 = some 0xF#4 ∧ nib 0x30#8 = some 0#4 := by decide

theorem witness_SkipAbsorbsText :
    isLine eofLine = true ∧ (skipState true 3#9).hxPhase = .skip := by decide

/-- A line without a marker, a whole one, one cut after a high digit, one with a foreign character. -/
theorem witness_TextRefinesLineProcedure :
    LineStart sixByteState
      ∧ (isLine [0x30#8, 0x30#8] = true ∧ afterMarker [0x30#8, 0x30#8] = none)
      ∧ (isLine eofLine = true ∧ afterMarker eofLine = some (eofLine.drop 1) ∧ lineStop (eofLine.drop 1) = .clean)
      ∧ (isLine [0x3A#8, 0x46#8] = true ∧ afterMarker [0x3A#8, 0x46#8] = some [0x46#8]
          ∧ lineStop [0x46#8] = .heldDigit 0xF#4 ∧ 0 < [0x46#8].length)
      ∧ (isLine [0x3A#8, 0x30#8, 0x31#8, 0x20#8] = true
          ∧ afterMarker [0x3A#8, 0x30#8, 0x31#8, 0x20#8] = some [0x30#8, 0x31#8, 0x20#8]
          ∧ 0 < (lineBytes [0x30#8, 0x31#8, 0x20#8]).length) := by decide

theorem witness_VerdictDependsOnOwnLineOnly :
    isLine eofLine = true ∧ isEolOp .hxEolLf = true ∧ LineStart State.reset := by decide

/-- A line that is valid and one that is not, both fed from the line-start state. -/
theorem witness_ValidLinesSpelledOut :
    isLine eofLine = true ∧ isEolOp .hxEolCr = true ∧ LineStart sixByteState
      ∧ (lineVerdict .strict eofLine).valid = true ∧ (lineVerdict .strict [0x3A#8]).valid = false := by decide

/-- Junk of one character, and the ways a line goes on after its run of pairs: not at all, with a digit alone, with a
digit and another character, with another character. -/
theorem witness_LongestRunOfPairsIsDecoded :
    isLine ([0x20#8] ++ eofLine.drop 1) = true ∧ 0x3A#8 ∉ [0x20#8] ∧ LineStart sixByteState
      ∧ (eofLine.drop 1).length = 2 * 5
      ∧ ([0x46#8].drop (2 * 0) = [0x46#8] ∧ (nib 0x46#8).isSome = true)
      ∧ ([0x46#8, 0x20#8].drop (2 * 0) = [0x46#8, 0x20#8] ∧ [0x20#8] ≠ [])
      ∧ ([0x20#8].drop (2 * 0) = [0x20#8] ∧ nib 0x20#8 = none) := by decide

/-- The run that fills the buffer, with one more digit after it. -/
theorem witness_LongestRunOfPairsIsDecoded_full :
    (List.replicate 523 0x30#8).drop (2 * 261) = [0x30#8] ∧ (nib 0x30#8).isSome = true := by
  rw [List.drop_replicate]
  decide

/-- The record of `:00000001FF`. -/
def eofRecord : HexRecord := { byteCount := 0#8, address := 0#16, recordType := 1#8, payload := [] }

theorem witness_SentRecordIsDecoded :
    isLine [0x20#8, 0x00#8] = true ∧ Config.hxSorCode ∉ [0x20#8, 0x00#8] ∧ eofRecord.wellFormed = true
      ∧ recordLine false eofRecord = eofLine := by decide

theorem witness_RejectedLineGivesCauses :
    isLine [0x3A#8, 0x30#8, 0x31#8] = true ∧ (lineVerdict .strict [0x3A#8, 0x30#8, 0x31#8]).valid = false := by decide

end Sys2Proof.Tests
end

/-! # Proofs: the state

The layer every proof below cites: what an operation can do to the state, said once as `ExecEffect`. -/

section
namespace Sys2Proof.Proofs

open Sys2Proof.Machine Sys2Proof.Laws

/-! ### What an operation can do -/

/-- The value of a hex digit operation (30_encoding.md R49); no other operation has one. -/
def digitValue : Instr → Option Nibble
  | .crcInit _ => none
  | .crcByte _ _ => none
  | .hxSor => none
  | .hxEolLf => none
  | .hxEolCr => none
  | .hxDec07 v => some (nibDec (codeDec07 v))
  | .hxDec89 v => some (nibDec (codeDec89 v))
  | .hxAlphaA k => some (nibAlpha (codeAlphaA k))
  | .hxAlphaBC k v => some (nibAlpha (codeAlphaBC k v))
  | .hxAlphaDE k v => some (nibAlpha (codeAlphaDE k v))
  | .hxAlphaF k => some (nibAlpha (codeAlphaF k))
  | .hxOther _ => none

/-- A digit operation is the shared digit operation with the operation's value, in every state. -/
theorem exec_of_digitValue {i : Instr} {v : Nibble} (h : digitValue i = some v) : exec i = hxDigit v := by
  cases i <;> cases h <;> rfl

/-- Both terminators end the line, in every state. -/
theorem exec_of_isEolOp {i : Instr} (h : isEolOp i = true) : exec i = fun s => .next (hxEndLine s) := by
  cases i with
  | hxEolLf => rfl
  | hxEolCr => rfl
  | _ => cases h

/-- The operations with a class are those of the HEX unit (R4, R48). -/
theorem unitOf_eq_hex_iff (i : Instr) : unitOf i = .hex ↔ classOf i ≠ none := by
  cases i <;> simp [unitOf, classOf]

theorem unitOf_digit {i : Instr} (h : isDigitOp i = true) : unitOf i = .hex := by
  rw [unitOf_eq_hex_iff]
  intro hc
  simp [isDigitOp, hc] at h

theorem unitOf_isEolOp {i : Instr} (h : isEolOp i = true) : unitOf i = .hex := by
  rw [unitOf_eq_hex_iff]
  intro hc
  simp [isEolOp, hc] at h

theorem unitOf_nonDigit {i : Instr} (h : i = .hxSor ∨ classOf i = some .other) : unitOf i = .hex := by
  rw [unitOf_eq_hex_iff]
  rcases h with rfl | h
  · nofun
  · simp [h]

/-- What an operation can leave, one case for each kind of effect the spec gives an operation. -/
inductive ExecEffect (i : Instr) (s : State) : State → Prop where
  /-- A character without effect in SEEK or in SKIP (R84, R87, R96). -/
  | ignored (unit : unitOf i = .hex) : ExecEffect i s s
  /-- The marker opens a record (R81). -/
  | started (marker : i = .hxSor) (seek : s.hxPhase = .seek) : ExecEffect i s (startRecord s)
  /-- The high digit of a pair is held (R84). -/
  | held (v : Nibble) (digit : isDigitOp i = true) (hi : s.hxPhase = .hi) (fits : s.hxN.toNat < Config.hexCap) :
      ExecEffect i s (holdNibble v s)
  /-- A digit comes when the buffer is full (R84). -/
  | overrun (digit : isDigitOp i = true) (hi : s.hxPhase = .hi) (full : Config.hexCap ≤ s.hxN.toNat) :
      ExecEffect i s (raiseCause .overrun s)
  /-- The low digit of a pair commits a byte (R85). -/
  | committed (b : Byte) (digit : isDigitOp i = true) (lo : s.hxPhase = .lo) (fits : s.hxN.toNat < Config.hexCap) :
      ExecEffect i s (commitByte b s)
  /-- A character that is no digit comes where one is expected (R81, R87). -/
  | malformed (nonDigit : i = .hxSor ∨ classOf i = some .other) (phase : s.hxPhase = .hi ∨ s.hxPhase = .lo) :
      ExecEffect i s (raiseCause .badDigit s)
  /-- The terminator ends the line (R88). -/
  | ended (eol : isEolOp i = true) : ExecEffect i s (hxEndLine s)
  /-- An operation of the CRC unit (R67, R68). -/
  | crc (acc : Word) (spec : Bool) (draws : Nat) (unit : unitOf i = .crc) :
      ExecEffect i s { s with crcAcc := acc, crcSpec := spec, draws := draws }

/-- A read of the accumulator changes the count of draws at most. -/
theorem readAcc_snd (s : State) : ∃ n, (readAcc s).2 = { s with draws := n } := by
  rcases Bool.eq_false_or_eq_true s.crcSpec with hs | hs
  · exact ⟨s.draws, by rw [readAcc_spec hs]⟩
  · exact ⟨s.draws + 1, by rw [readAcc_free hs]⟩

theorem execEffect_of_hxDigit {i : Instr} {v : Nibble} {s t : State} (hd : isDigitOp i = true)
    (h : hxDigit v s = .next t) : ExecEffect i s t := by
  rcases hxDigit_next_cases h with ⟨-, rfl⟩ | ⟨hp, hn, rfl⟩ | ⟨hp, hn, rfl⟩ | ⟨hp, hn, rfl⟩
  · exact .ignored (unitOf_digit hd)
  · exact .held v hd hp hn
  · exact .overrun hd hp hn
  · exact .committed _ hd hp hn

theorem execEffect_of_execHxSor {s t : State} (h : execHxSor s = .next t) : ExecEffect .hxSor s t := by
  rcases execHxSor_cases h with ⟨hp, rfl⟩ | ⟨hp, rfl⟩ | ⟨-, rfl⟩
  · exact .started rfl hp
  · exact .malformed (.inl rfl) hp
  · exact .ignored rfl

theorem execEffect_of_execHxOther {i : Instr} {s t : State} (hc : classOf i = some .other)
    (h : execHxOther s = .next t) : ExecEffect i s t := by
  rcases execHxOther_cases h with ⟨-, rfl⟩ | ⟨hp, rfl⟩
  · exact .ignored (unitOf_nonDigit (.inr hc))
  · exact .malformed (.inr hc) hp

theorem execEffect_of_execCrcByte {i : Instr} {b : Byte} {s t : State} (hu : unitOf i = .crc)
    (h : execCrcByte b s = .next t) : ExecEffect i s t := by
  rw [execCrcByte_eq] at h
  obtain ⟨n, hn⟩ := readAcc_snd s
  rw [hn] at h
  cases h
  exact .crc _ _ _ hu

/-- Everything an operation can do when it answers a next state. -/
theorem execEffect_of_exec {i : Instr} {s t : State} (h : exec i s = .next t) : ExecEffect i s t := by
  rcases exec_cases i s with ⟨hd, -, -, v, he⟩ | ⟨rfl, he⟩ | ⟨hl, -, -, he⟩ | ⟨hc, -, he⟩ | ⟨hu, -, seed, -, he⟩
    | ⟨hu, -, x, b, -, he⟩
  all_goals rw [he] at h
  · exact execEffect_of_hxDigit hd h
  · exact execEffect_of_execHxSor h
  · cases h
    exact .ended hl
  · exact execEffect_of_execHxOther hc h
  · cases h
    exact .crc seed true s.draws hu
  · exact execEffect_of_execCrcByte hu h

/-! ### What a step runs -/

/-- A step performs the operation presented first, decoded. -/
theorem step_op {s : State} {c : Command} {rest : List Event} (h : s.pending = .op c :: rest) :
    step s = exec (decode c) { s with pending := rest } := by
  simp [step, takeEvent, h]

/-- A step answers the read presented first. -/
theorem step_read {s : State} {p : Port} {rest : List Event} (h : s.pending = .read p :: rest) :
    step s = readPort p { s with pending := rest } := by
  simp [step, takeEvent, h]

/-- With nothing presented nothing changes. -/
theorem step_nil {s : State} (h : s.pending = []) : step s = .next s := by
  simp [step, takeEvent, h]

/-- A reset that is presented first puts the block into its reset state (R135). -/
theorem step_reset {s : State} {rest : List Event} (h : s.pending = .reset :: rest) :
    step s = .next (resetBlock { s with pending := rest }) := by
  simp [step, takeEvent, h]

end Sys2Proof.Proofs
end

section
namespace Sys2Proof.Proofs

open Sys2Proof.Machine Sys2Proof.Laws

/-! ### The invariant of the block (10_state.md R22, 41_hex_decoder.md R85) -/

/-- Outside SKIP both flags are clear (R22(c)). -/
theorem flags_clear {s : State} (h : FlagsOnlyInSkip s) (hp : s.hxPhase ≠ .skip) : s.hxBad = false ∧ s.hxOvf = false := by
  obtain ⟨hbad, hovf, -⟩ := h
  exact ⟨Bool.eq_false_iff.mpr fun hb => hp (hbad hb), Bool.eq_false_iff.mpr fun ho => hp (hovf ho)⟩

/-- With both flags clear every clause on the flags holds in a phase other than SKIP. -/
theorem flag_clauses_of_clear {s : State} (hp : s.hxPhase ≠ .skip) (hb : s.hxBad = false) (ho : s.hxOvf = false) :
    FlagsOnlyInSkip s ∧ OverrunOnlyWhenFull s ∧ SkipHasFlag s := by
  simp [FlagsOnlyInSkip, OverrunOnlyWhenFull, SkipHasFlag, hp, hb, ho]

/-- A state with the empty count, outside SKIP and with clear flags meets the invariant. -/
theorem blockInv_of_empty {s : State} (hn : s.hxN = 0#9) (hsum : s.hxSum = 0#8) (hp : s.hxPhase ≠ .skip)
    (hb : s.hxBad = false) (ho : s.hxOvf = false) (hwf : Memory.wf s.hxRb) : BlockInv s := by
  obtain ⟨hflags, hfull, hskip⟩ := flag_clauses_of_clear hp hb ho
  refine ⟨?_, ?_, hflags, hfull, hskip, ?_, ?_, hwf⟩
  · simp [CountInRange, hn]
  · simp [SumAgrees, hn, hsum, Memory.sumBelow]
  · simp [HeldDigitFits, hn, Config.hexCap]
  · simp [BytesHeld, hn]

theorem blockInv_reset : BlockInv State.reset :=
  blockInv_of_empty rfl rfl nofun rfl rfl wf_nil

theorem blockInv_startRecord {s : State} (h : BlockInv s) (hp : s.hxPhase = .seek) : BlockInv (startRecord s) := by
  obtain ⟨-, -, hflags, -, -, -, -, hwf⟩ := h
  obtain ⟨hb, ho⟩ := flags_clear hflags (by simp [hp])
  exact blockInv_of_empty rfl rfl nofun hb ho hwf

theorem blockInv_holdNibble {s : State} (v : Nibble) (h : BlockInv s) (hp : s.hxPhase = .hi)
    (hn : s.hxN.toNat < Config.hexCap) : BlockInv (holdNibble v s) := by
  obtain ⟨hcount, hsum, hflags, -, -, -, hheld, hwf⟩ := h
  obtain ⟨hb, ho⟩ := flags_clear hflags (by simp [hp])
  obtain ⟨hflags', hfull', hskip'⟩ := flag_clauses_of_clear (s := holdNibble v s) nofun hb ho
  exact ⟨hcount, hsum, hflags', hfull', hskip', fun _ => hn, hheld, hwf⟩

/-- OVERRUN is raised with the buffer full, so R22(a) makes the count exactly its capacity (R22(d)). -/
theorem blockInv_raiseOverrun {s : State} (h : BlockInv s) (hp : s.hxPhase = .hi)
    (hn : Config.hexCap ≤ s.hxN.toNat) : BlockInv (raiseCause .overrun s) := by
  obtain ⟨hcount, hsum, hflags, -, -, -, hheld, hwf⟩ := h
  obtain ⟨hb, -⟩ := flags_clear hflags (by simp [hp])
  refine ⟨hcount, hsum, ?_, fun _ => Nat.le_antisymm hcount hn, fun _ => .inr rfl, nofun, hheld, hwf⟩
  simp [FlagsOnlyInSkip, hb]

theorem blockInv_raiseBadDigit {s : State} (h : BlockInv s) (hp : s.hxPhase = .hi ∨ s.hxPhase = .lo) :
    BlockInv (raiseCause .badDigit s) := by
  obtain ⟨hcount, hsum, hflags, -, -, -, hheld, hwf⟩ := h
  obtain ⟨-, ho⟩ := flags_clear hflags (by rcases hp with hp | hp <;> simp [hp])
  refine ⟨hcount, hsum, ?_, ?_, fun _ => .inl rfl, nofun, hheld, hwf⟩
  · simp [FlagsOnlyInSkip, ho]
  · simp [OverrunOnlyWhenFull, ho]

/-- While the count is below the capacity a commit does not wrap it. -/
theorem toNat_count_succ {n : Count} (h : n.toNat < Config.hexCap) : (n + 1).toNat = n.toNat + 1 := by
  have : n.toNat < 261 := h
  bv_omega

/-- The commit extends the sum and the bytes held by one (R85, R86). -/
theorem blockInv_commitByte {s : State} (b : Byte) (h : BlockInv s) (hp : s.hxPhase = .lo)
    (hn : s.hxN.toNat < Config.hexCap) : BlockInv (commitByte b s) := by
  obtain ⟨-, hsum, hflags, -, -, -, hheld, hwf⟩ := h
  obtain ⟨hb, ho⟩ := flags_clear hflags (by simp [hp])
  obtain ⟨hflags', hfull', hskip'⟩ := flag_clauses_of_clear (s := commitByte b s) nofun hb ho
  have hcount : (commitByte b s).hxN.toNat = s.hxN.toNat + 1 := toNat_count_succ hn
  refine ⟨?_, ?_, hflags', hfull', hskip', nofun, fun i hi => ?_, wf_write b hwf hn⟩
  · rw [CountInRange, hcount]
    exact hn
  · rw [SumAgrees, hcount, commitByte_hxSum, commitByte_hxRb, sumBelow_write_next, ← hsum]
  · rw [commitByte_hxRb]
    rw [hcount] at hi
    rcases Nat.lt_succ_iff_lt_or_eq.mp hi with hlt | rfl
    · rw [read_write_other _ _ (Nat.ne_of_lt hlt)]
      exact hheld i hlt
    · rw [read_write_same]
      rfl

theorem blockInv_hxEndLine {s : State} (h : BlockInv s) : BlockInv (hxEndLine s) := by
  obtain ⟨hcount, hsum, -, -, -, -, hheld, hwf⟩ := h
  obtain ⟨hflags', hfull', hskip'⟩ := flag_clauses_of_clear (s := hxEndLine s) nofun rfl rfl
  exact ⟨hcount, hsum, hflags', hfull', hskip', nofun, hheld, hwf⟩

/-- Every operation keeps the invariant. -/
theorem blockInv_exec {i : Instr} {s t : State} (h : BlockInv s) (he : exec i s = .next t) : BlockInv t := by
  cases execEffect_of_exec he with
  | ignored => exact h
  | started _ hp => exact blockInv_startRecord h hp
  | held v _ hp hn => exact blockInv_holdNibble v h hp hn
  | overrun _ hp hn => exact blockInv_raiseOverrun h hp hn
  | committed b _ hp hn => exact blockInv_commitByte b h hp hn
  | malformed _ hp => exact blockInv_raiseBadDigit h hp
  | ended => exact blockInv_hxEndLine h
  | crc => exact h

/-- Settles O30: an operation by its effect, a read because it touches no register, reset by its values. -/
theorem stepKeepsInvariant : Obligations.StepKeepsInvariant := by
  intro s t h hs
  rcases step_cases s with ⟨-, he⟩ | ⟨c, rest, -, he⟩ | ⟨p, rest, -, he⟩ | ⟨rest, -, he⟩
  all_goals rw [he] at hs
  · cases hs
    exact h
  · exact blockInv_exec (s := { s with pending := rest }) h hs
  · obtain ⟨n, o, rfl⟩ := readPort_next hs
    exact h
  · cases hs
    exact blockInv_reset

/-- Settles O29: the count, the sum and the buffer are empty, and the phase is SEEK with both flags clear. -/
theorem invariantHoldsAtReset : Obligations.InvariantHoldsAtReset := ⟨blockInv_reset, rfl, rfl, rfl⟩

/-- Settles O28: a reset step leaves the reset state, but for what is presented, what was put out and the draws. -/
theorem resetValues : Obligations.ResetValues := by
  refine ⟨⟨rfl, rfl, rfl, rfl, rfl, rfl, read_nil⟩, fun s rest hs => ?_⟩
  exact ⟨_, step_reset hs, rfl, rfl, rfl, rfl, rfl, rfl, read_nil, rfl, rfl⟩

end Sys2Proof.Proofs
end

section
namespace Sys2Proof.Proofs

open Sys2Proof.Machine Sys2Proof.Laws

/-! ### The two units, and who writes what -/

/-- Every effect is one unit's own: the HEX unit's leaves the accumulator, its mark and the count of draws, the CRC
unit's changes nothing else (R22(g)). -/
theorem ExecEffect.unit_frame {i : Instr} {s t : State} (h : ExecEffect i s t) :
    (unitOf i = .hex ∧ t.crcAcc = s.crcAcc ∧ t.crcSpec = s.crcSpec ∧ t.draws = s.draws ∧ t.pending = s.pending)
      ∨ (unitOf i = .crc ∧ ∃ a b n, t = { s with crcAcc := a, crcSpec := b, draws := n }) := by
  cases h with
  | ignored hu => exact .inl ⟨hu, rfl, rfl, rfl, rfl⟩
  | started hi => exact .inl ⟨hi ▸ rfl, rfl, rfl, rfl, rfl⟩
  | held _ hd => exact .inl ⟨unitOf_digit hd, rfl, rfl, rfl, rfl⟩
  | overrun hd => exact .inl ⟨unitOf_digit hd, rfl, rfl, rfl, rfl⟩
  | committed _ hd => exact .inl ⟨unitOf_digit hd, rfl, rfl, rfl, rfl⟩
  | malformed hi => exact .inl ⟨unitOf_nonDigit hi, rfl, rfl, rfl, rfl⟩
  | ended he => exact .inl ⟨unitOf_isEolOp he, rfl, rfl, rfl, rfl⟩
  | crc a b n hu => exact .inr ⟨hu, a, b, n, rfl⟩

/-- Settles O33: the two frames, one for each unit. -/
theorem unitsShareNoState : Obligations.UnitsShareNoState := by
  intro i s t h
  rcases (execEffect_of_exec h).unit_frame with ⟨hu, hacc, hspec, hdraws, hpending⟩ | ⟨hu, a, b, n, rfl⟩
  · exact ⟨fun _ => ⟨hacc, hspec, hdraws⟩, fun hc => by simp [hu] at hc, hpending⟩
  · exact ⟨fun hc => by simp [hu] at hc, fun _ => ⟨rfl, rfl, rfl, rfl, rfl, rfl, rfl, rfl⟩, rfl⟩

/-- Settles O37: for each effect, the registers it writes are those its case names; the rest are unchanged. -/
theorem registerWriters : Obligations.RegisterWriters := by
  intro i s t h
  cases execEffect_of_exec h with
  | ignored => simp +contextual
  | started hi hp => simp +contextual [hi, hp, unitOf]
  | held v hd hp => simp +contextual [hd, hp, unitOf_digit hd]
  | overrun hd hp hn =>
    have hfull : 261 ≤ s.hxN.toNat := hn
    simp +contextual [hd, hp, hfull, unitOf_digit hd]
  | committed b hd hp => simp +contextual [hd, hp, unitOf_digit hd]
  | malformed hi hp => simp +contextual [hi, hp, unitOf_nonDigit hi]
  | ended he => simp +contextual [he, unitOf_isEolOp he]
  | crc a b n hu => simp +contextual [hu]

end Sys2Proof.Proofs
end

section
namespace Sys2Proof.Proofs

open Sys2Proof.Machine Sys2Proof.Laws

/-! ### What a step runs -/

/-- The fields of a `CRC.INIT` word (R46). -/
theorem decodeCrc_initWord (seed : Word) : decodeCrc (0#1 ++ seed) = .crcInit seed := by
  have hop : cmdOp (0#1 ++ seed) = false := by
    rw [cmdOp, initWord_bit]
    exact BitVec.getLsbD_of_ge seed 32 (Nat.le_refl 32)
  have hseed : (0#1 ++ seed : CrcCmd).extractLsb' 0 32 = seed :=
    BitVec.eq_of_getLsbD_eq fun j hj => by simp [initWord_bit, hj]
  simp [decodeCrc, hop, hseed]

/-- The fields of a `CRC.BYTE` word (R46). -/
theorem decodeCrc_byteWord (x : BitVec 24) (b : Byte) : decodeCrc (1#1 ++ x ++ b) = .crcByte x b := by
  have hop : cmdOp (1#1 ++ x ++ b) = true := by
    rw [cmdOp, byteWord_bit]
    rfl
  have hx : (1#1 ++ x ++ b : CrcCmd).extractLsb' 8 24 = x :=
    BitVec.eq_of_getLsbD_eq fun j hj => by
      have h8 : ¬8 + j < 8 := by omega
      have h32 : 8 + j < 32 := by omega
      simp [byteWord_bit, hj, h8, h32]
  have hb : (1#1 ++ x ++ b : CrcCmd).extractLsb' 0 8 = b :=
    BitVec.eq_of_getLsbD_eq fun j hj => by simp [byteWord_bit, hj]
  simp [decodeCrc, hop, hx, hb]

theorem decodeHx_of_isOtherCode : ∀ c : Byte, isOtherCode c = true → decodeHx c = .hxOther c := by decide

/-- The decoder reads an operation back from its own words (R54). -/
theorem decode_encode (i : Instr) (h : i.wellFormed = true) : decode (encode i) = i := by
  cases i with
  | crcInit seed => exact decodeCrc_initWord seed
  | crcByte x b => exact decodeCrc_byteWord x b
  | hxSor => rfl
  | hxEolLf => rfl
  | hxEolCr => rfl
  | hxDec07 v => revert v; decide
  | hxDec89 v => revert v; decide
  | hxAlphaA k => revert k; decide
  | hxAlphaBC k v => revert k v; decide
  | hxAlphaDE k v => revert k v; decide
  | hxAlphaF k => revert k; decide
  | hxOther c => exact decodeHx_of_isOtherCode c h

/-- A word that is put before what is pending is what runs, in the state itself. -/
theorem step_present_op (c : Command) (s : State) : step (present (.op c) s) = exec (decode c) s :=
  step_op (present_pending (.op c) s)

/-- A number with a meaning is a word of a port, and placing it presents that word (log 15). -/
theorem withFetchWord_of_decodeTableWord {s : State} {nbits w : Nat} {i : Instr}
    (h : decodeTableWord nbits w = some i) : ∃ c, s.withFetchWord nbits w = present (.op c) s ∧ decode c = i := by
  rcases hw : commandOfWord nbits w with _ | c
  · simp [decodeTableWord, hw] at h
  · exact ⟨c, by simp [State.withFetchWord, presentWord, hw], by simpa [decodeTableWord, hw] using h⟩

/-- Settles O32. -/
theorem stepRunsThePresentedOperation : Obligations.StepRunsThePresentedOperation := by
  refine ⟨fun s c rest h => step_op h, fun s p rest h => step_read h, fun s i hi => ?_, fun s nbits w i h => ?_,
    fun s h => step_nil h⟩
  · rw [step_present_op, decode_encode i hi]
  · obtain ⟨c, hs, hc⟩ := withFetchWord_of_decodeTableWord (s := s) h
    rw [hs, step_present_op, hc]

/-! ### Reading an output -/

/-- An index inside the buffer is read at the port (R32). -/
theorem readPort_rbRead {i : Count} {s : State} (h : i.toNat < Config.hexCap) :
    readPort (.rbRead i) s = .next (emit (.rbRead i (readRb i.toNat s).1) (readRb i.toNat s).2) := by
  simp [readPort, h]

/-- An index outside the buffer is refused (R32). -/
theorem readPort_rbRead_refused {i : Count} {s : State} (h : Config.hexCap ≤ i.toNat) :
    readPort (.rbRead i) s = .refused (.rbIndexNotAccepted i) := by
  simp [readPort, Nat.not_lt.mpr h]

/-- Settles O39: a read never faults, and is refused only at an index outside the buffer. -/
theorem readsChangeNoBlockState : Obligations.ReadsChangeNoBlockState := by
  intro p s
  obtain ⟨hfault, hrefused⟩ := readPort_stops (p := p) (s := s)
  refine ⟨fun hin => ?_, fun i hp hi => hp ▸ readPort_rbRead_refused hi⟩
  rcases hr : readPort p s with t | f | x
  · obtain ⟨n, o, rfl⟩ := readPort_next hr
    exact ⟨_, o, rfl, rfl⟩
  · exact absurd hr (hfault f)
  · obtain ⟨i, hp, hi, -⟩ := hrefused x hr
    exact absurd (hin i hp) (Nat.not_lt.mpr hi)

/-- Settles O41: below the count the byte is fixed, at or above it the port draws. -/
theorem recordBufferReadPort : Obligations.RecordBufferReadPort := by
  refine fun i s => ⟨fun b hi hcap hb => ?_, fun hi hcap => ?_⟩
  · have hfixed : rbByte s i.toNat = some b := (rbByte_held hi).trans hb
    simp [readPort_rbRead hcap, readRb, hfixed, fixedOrFree, emit]
  · simp [readPort_rbRead hcap, readRb, rbByte_above hi, fixedOrFree, drawByte, emit]

end Sys2Proof.Proofs
end

section
namespace Sys2Proof.Proofs

open Sys2Proof.Machine Sys2Proof.Laws

/-! ### Unspecified storage

Two runs whose states agree on all the spec fixes (`SameSpecified`) stay so: first every update, then every read of a
value, then every operation and every port. -/

/-! #### What the two states share -/

theorem sameSpecified_crcSpec {s t : State} (h : SameSpecified s t) : s.crcSpec = t.crcSpec := by
  obtain ⟨hspec, -⟩ := h
  exact hspec

theorem sameSpecified_crcAcc {s t : State} (h : SameSpecified s t) (hs : s.crcSpec = true) : s.crcAcc = t.crcAcc := by
  obtain ⟨-, hacc, -⟩ := h
  exact hacc hs

theorem sameSpecified_hxPhase {s t : State} (h : SameSpecified s t) : s.hxPhase = t.hxPhase := by
  obtain ⟨-, -, hphase, -⟩ := h
  exact hphase

theorem sameSpecified_hxNib {s t : State} (h : SameSpecified s t) (hp : s.hxPhase = .lo) : s.hxNib = t.hxNib := by
  obtain ⟨-, -, -, hnib, -⟩ := h
  exact hnib hp

theorem sameSpecified_hxN {s t : State} (h : SameSpecified s t) : s.hxN = t.hxN := by
  obtain ⟨-, -, -, -, hn, -⟩ := h
  exact hn

theorem sameSpecified_draws {s t : State} (h : SameSpecified s t) : s.draws = t.draws := by
  obtain ⟨-, -, -, -, -, -, -, -, -, hdraws, -, -⟩ := h
  exact hdraws

theorem sameSpecified_pending {s t : State} (h : SameSpecified s t) : s.pending = t.pending := by
  obtain ⟨-, -, -, -, -, -, -, -, -, -, hpend, -⟩ := h
  exact hpend

/-! #### The updates -/

theorem sameSpecified_setPending {s t : State} (h : SameSpecified s t) (rest : List Event) :
    SameSpecified { s with pending := rest } { t with pending := rest } := by
  obtain ⟨hspec, hacc, hphase, hnib, hn, hsum, hbad, hovf, hrb, hdraws, -, hout⟩ := h
  exact ⟨hspec, hacc, hphase, hnib, hn, hsum, hbad, hovf, hrb, hdraws, rfl, hout⟩

theorem sameSpecified_emit {s t : State} (h : SameSpecified s t) (o : Output) :
    SameSpecified (emit o s) (emit o t) := by
  obtain ⟨hspec, hacc, hphase, hnib, hn, hsum, hbad, hovf, hrb, hdraws, hpend, hout⟩ := h
  exact ⟨hspec, hacc, hphase, hnib, hn, hsum, hbad, hovf, hrb, hdraws, hpend, congrArg (· ++ [o]) hout⟩

theorem sameSpecified_addDraws {s t : State} (h : SameSpecified s t) (n : Nat) :
    SameSpecified { s with draws := s.draws + n } { t with draws := t.draws + n } := by
  obtain ⟨hspec, hacc, hphase, hnib, hn, hsum, hbad, hovf, hrb, hdraws, hpend, hout⟩ := h
  exact ⟨hspec, hacc, hphase, hnib, hn, hsum, hbad, hovf, hrb, congrArg (· + n) hdraws, hpend, hout⟩

theorem sameSpecified_writeAcc {s t : State} (h : SameSpecified s t) (a : Word) :
    SameSpecified (writeAcc a s) (writeAcc a t) := by
  obtain ⟨hspec, -, hphase, hnib, hn, hsum, hbad, hovf, hrb, hdraws, hpend, hout⟩ := h
  exact ⟨hspec, fun _ => rfl, hphase, hnib, hn, hsum, hbad, hovf, hrb, hdraws, hpend, hout⟩

/-- Marking the accumulator needs it equal, which the load before the mark makes it (R67). -/
theorem sameSpecified_initAcc {s t : State} (h : SameSpecified s t) (seed : Word) :
    SameSpecified (markSpecified (writeAcc seed s)) (markSpecified (writeAcc seed t)) := by
  obtain ⟨-, -, hphase, hnib, hn, hsum, hbad, hovf, hrb, hdraws, hpend, hout⟩ := h
  exact ⟨rfl, fun _ => rfl, hphase, hnib, hn, hsum, hbad, hovf, hrb, hdraws, hpend, hout⟩

theorem sameSpecified_resetBlock {s t : State} (h : SameSpecified s t) :
    SameSpecified (resetBlock s) (resetBlock t) := by
  obtain ⟨-, -, -, -, -, -, -, -, -, hdraws, hpend, hout⟩ := h
  exact ⟨rfl, fun _ => rfl, rfl, fun _ => rfl, rfl, rfl, rfl, rfl, fun _ _ => rfl, hdraws, hpend, hout⟩

/-- The marker drops the count to zero, so no byte of the buffer is specified any more (R33, R81). -/
theorem sameSpecified_startRecord {s t : State} (h : SameSpecified s t) :
    SameSpecified (startRecord s) (startRecord t) := by
  obtain ⟨hspec, hacc, -, -, -, -, hbad, hovf, -, hdraws, hpend, hout⟩ := h
  exact ⟨hspec, hacc, rfl, nofun, rfl, rfl, hbad, hovf, fun i hi => absurd hi (Nat.not_lt_zero i), hdraws, hpend, hout⟩

theorem sameSpecified_raiseBadDigit {s t : State} (h : SameSpecified s t) :
    SameSpecified (raiseCause .badDigit s) (raiseCause .badDigit t) := by
  obtain ⟨hspec, hacc, -, -, hn, hsum, -, hovf, hrb, hdraws, hpend, hout⟩ := h
  exact ⟨hspec, hacc, rfl, nofun, hn, hsum, rfl, hovf, hrb, hdraws, hpend, hout⟩

theorem sameSpecified_raiseOverrun {s t : State} (h : SameSpecified s t) :
    SameSpecified (raiseCause .overrun s) (raiseCause .overrun t) := by
  obtain ⟨hspec, hacc, -, -, hn, hsum, hbad, -, hrb, hdraws, hpend, hout⟩ := h
  exact ⟨hspec, hacc, rfl, nofun, hn, hsum, hbad, rfl, hrb, hdraws, hpend, hout⟩

theorem sameSpecified_holdNibble {s t : State} (h : SameSpecified s t) (v : Nibble) :
    SameSpecified (holdNibble v s) (holdNibble v t) := by
  obtain ⟨hspec, hacc, -, -, hn, hsum, hbad, hovf, hrb, hdraws, hpend, hout⟩ := h
  exact ⟨hspec, hacc, rfl, fun _ => rfl, hn, hsum, hbad, hovf, hrb, hdraws, hpend, hout⟩

/-- The byte that a commit adds is the same on both sides, and so is its index. -/
theorem sameSpecified_commitByte {s t : State} (h : SameSpecified s t) (b : Byte)
    (hfits : s.hxN.toNat < Config.hexCap) : SameSpecified (commitByte b s) (commitByte b t) := by
  obtain ⟨hspec, hacc, -, -, hn, hsum, hbad, hovf, hrb, hdraws, hpend, hout⟩ := h
  refine ⟨hspec, hacc, rfl, nofun, congrArg (· + 1) hn, congrArg (· + b) hsum, hbad, hovf, fun i hi => ?_, hdraws, hpend,
    hout⟩
  rw [commitByte_hxN, toNat_count_succ hfits] at hi
  rw [commitByte_hxRb, commitByte_hxRb, ← hn]
  rcases Nat.lt_succ_iff_lt_or_eq.mp hi with hlt | rfl
  · rw [read_write_other _ _ (Nat.ne_of_lt hlt), read_write_other _ _ (Nat.ne_of_lt hlt)]
    exact hrb i hlt
  · rw [read_write_same, read_write_same]

/-- A verdict is computed from specified registers only (R89). -/
theorem verdictOf_congr {s t : State} (hphase : s.hxPhase = t.hxPhase) (hn : s.hxN = t.hxN) (hsum : s.hxSum = t.hxSum)
    (hbad : s.hxBad = t.hxBad) (hovf : s.hxOvf = t.hxOvf) : verdictOf s = verdictOf t := by
  simp [verdictOf, verdictUnder, errMask, causeApplies, markerFound, hphase, hn, hsum, hbad, hovf]

theorem sameSpecified_hxEndLine {s t : State} (h : SameSpecified s t) : SameSpecified (hxEndLine s) (hxEndLine t) := by
  obtain ⟨hspec, hacc, hphase, -, hn, hsum, hbad, hovf, hrb, hdraws, hpend, hout⟩ := h
  refine ⟨hspec, hacc, rfl, nofun, hn, hsum, rfl, rfl, hrb, hdraws, hpend, ?_⟩
  rw [hxEndLine_outputs, hxEndLine_outputs, hout, verdictOf_congr hphase hn hsum hbad hovf]

/-! #### The reads of a value -/

/-- Two reads give the same value and leave states that agree. -/
def SameRead {α : Type} (x y : α × State) : Prop := x.1 = y.1 ∧ SameSpecified x.2 y.2

theorem sameSpecified_readAcc {s t : State} (h : SameSpecified s t) : SameRead (readAcc s) (readAcc t) := by
  have hspec := sameSpecified_crcSpec h
  rcases Bool.eq_false_or_eq_true s.crcSpec with hs | hs
  · rw [readAcc_spec hs, readAcc_spec (hspec ▸ hs)]
    exact ⟨sameSpecified_crcAcc h hs, h⟩
  · rw [readAcc_free hs, readAcc_free (hspec ▸ hs)]
    exact ⟨congrArg Config.unspecWord (sameSpecified_draws h), sameSpecified_addDraws h 1⟩

theorem sameSpecified_rbByte {s t : State} (h : SameSpecified s t) (i : Nat) : rbByte s i = rbByte t i := by
  obtain ⟨-, -, -, -, hn, -, -, -, hrb, -, -, -⟩ := h
  rcases Nat.lt_or_ge i s.hxN.toNat with hi | hi
  · rw [rbByte_held hi, rbByte_held (hn ▸ hi), hrb i hi]
  · rw [rbByte_above hi, rbByte_above (hn ▸ hi)]

theorem sameSpecified_viewByte {s t : State} (h : SameSpecified s t) (i : Nat) : viewByte s i = viewByte t i := by
  have hphase := sameSpecified_hxPhase h
  by_cases hp : s.hxPhase = .seek
  · rw [viewByte_seek hp, viewByte_seek (hphase ▸ hp), sameSpecified_rbByte h]
  · rw [viewByte_late hp, viewByte_late (hphase ▸ hp)]

/-- A view is a function of the bytes that are shown and of the count. -/
theorem sameSpecified_views {s t : State} (h : SameSpecified s t) :
    addressView s = addressView t ∧ (∀ k, payloadByte s k = payloadByte t k) ∧ checksumView s = checksumView t := by
  have hn := sameSpecified_hxN h
  refine ⟨?_, fun k => ?_, ?_⟩
  · simp only [addressView, sameSpecified_viewByte h]
  · simp only [payloadByte, sameSpecified_viewByte h]
  · simp only [checksumView, sameSpecified_viewByte h, hn]

theorem sameSpecified_fixedOrFree {s t : State} (h : SameSpecified s t) {x y : Option Byte} (hb : x = y) :
    SameRead (fixedOrFree x s) (fixedOrFree y t) := by
  subst hb
  rw [fixedOrFree_eq, fixedOrFree_eq]
  exact ⟨by rw [sameSpecified_draws h], sameSpecified_addDraws h _⟩

theorem sameSpecified_readRecAddr {s t : State} (h : SameSpecified s t) :
    SameRead (readRecAddr s) (readRecAddr t) := by
  obtain ⟨haddress, -⟩ := sameSpecified_views h
  rw [readRecAddr_eq, readRecAddr_eq, haddress]
  exact ⟨by rw [sameSpecified_draws h], sameSpecified_addDraws h _⟩

/-! #### The operations and the ports -/

/-- A digit: the phase, the count and, in LO, the held nibble that it looks at are specified. -/
theorem sameSpecified_hxDigit {s t : State} (h : SameSpecified s t) (v : Nibble) :
    SameSpecifiedResult (hxDigit v s) (hxDigit v t) := by
  have hphase := sameSpecified_hxPhase h
  have hn := sameSpecified_hxN h
  have hfit := Nat.lt_or_ge s.hxN.toNat Config.hexCap
  rcases hp : s.hxPhase with _ | _ | _ | _
  · rw [hxDigit_ignored v (.inl hp), hxDigit_ignored v (.inl (hphase ▸ hp))]
    exact h
  · rcases hfit with hf | hf
    · rw [hxDigit_hi_held v hp hf, hxDigit_hi_held v (hphase ▸ hp) (hn ▸ hf)]
      exact sameSpecified_holdNibble h v
    · rw [hxDigit_hi_full v hp hf, hxDigit_hi_full v (hphase ▸ hp) (hn ▸ hf)]
      exact sameSpecified_raiseOverrun h
  · rcases hfit with hf | hf
    · rw [hxDigit_lo v hp hf, hxDigit_lo v (hphase ▸ hp) (hn ▸ hf), sameSpecified_hxNib h hp]
      exact sameSpecified_commitByte h _ hf
    · rw [hxDigit_lo_fault v hp hf, hxDigit_lo_fault v (hphase ▸ hp) (hn ▸ hf)]
      rfl
  · rw [hxDigit_ignored v (.inr hp), hxDigit_ignored v (.inr (hphase ▸ hp))]
    exact h

theorem sameSpecified_execHxSor {s t : State} (h : SameSpecified s t) :
    SameSpecifiedResult (execHxSor s) (execHxSor t) := by
  have hphase := sameSpecified_hxPhase h
  unfold execHxSor
  rw [← hphase]
  cases s.hxPhase with
  | seek => exact sameSpecified_startRecord h
  | hi => exact sameSpecified_raiseBadDigit h
  | lo => exact sameSpecified_raiseBadDigit h
  | skip => exact h

theorem sameSpecified_execHxOther {s t : State} (h : SameSpecified s t) :
    SameSpecifiedResult (execHxOther s) (execHxOther t) := by
  have hphase := sameSpecified_hxPhase h
  unfold execHxOther
  rw [← hphase]
  cases s.hxPhase with
  | seek => exact h
  | hi => exact sameSpecified_raiseBadDigit h
  | lo => exact sameSpecified_raiseBadDigit h
  | skip => exact h

theorem sameSpecified_execCrcByte {s t : State} (h : SameSpecified s t) (b : Byte) :
    SameSpecifiedResult (execCrcByte b s) (execCrcByte b t) := by
  obtain ⟨hvalue, hstate⟩ := sameSpecified_readAcc h
  rw [execCrcByte_eq, execCrcByte_eq, hvalue]
  exact sameSpecified_writeAcc hstate _

/-- Every operation answers alike in states that agree. -/
theorem sameSpecified_exec {s t : State} (h : SameSpecified s t) (i : Instr) :
    SameSpecifiedResult (exec i s) (exec i t) := by
  cases i with
  | crcInit seed => exact sameSpecified_initAcc h seed
  | crcByte _ b => exact sameSpecified_execCrcByte h b
  | hxSor => exact sameSpecified_execHxSor h
  | hxEolLf => exact sameSpecified_hxEndLine h
  | hxEolCr => exact sameSpecified_hxEndLine h
  | hxDec07 v => exact sameSpecified_hxDigit h _
  | hxDec89 v => exact sameSpecified_hxDigit h _
  | hxAlphaA k => exact sameSpecified_hxDigit h _
  | hxAlphaBC k v => exact sameSpecified_hxDigit h _
  | hxAlphaDE k v => exact sameSpecified_hxDigit h _
  | hxAlphaF k => exact sameSpecified_hxDigit h _
  | hxOther _ => exact sameSpecified_execHxOther h

/-- The answer to a read that gave the same value on both sides. -/
theorem sameRead_emit {α : Type} {x y : α × State} (h : SameRead x y) (output : α → Output) :
    SameSpecifiedResult (.next (emit (output x.1) x.2)) (.next (emit (output y.1) y.2)) := by
  obtain ⟨hvalue, hstate⟩ := h
  rw [hvalue]
  exact sameSpecified_emit hstate _

/-- Every port answers alike in states that agree. -/
theorem sameSpecified_readPort {s t : State} (h : SameSpecified s t) (p : Port) :
    SameSpecifiedResult (readPort p s) (readPort p t) := by
  have hn := sameSpecified_hxN h
  obtain ⟨-, hpayload, hchecksum⟩ := sameSpecified_views h
  cases p with
  | crcOut =>
    have hread : SameRead (readCrcOut s) (readCrcOut t) := by
      rw [readCrcOut_eq, readCrcOut_eq]
      exact sameSpecified_readAcc h
    exact sameRead_emit hread Output.crcOut
  | nbytes =>
    have hread : SameRead (s.hxN, s) (t.hxN, t) := ⟨hn, h⟩
    exact sameRead_emit hread Output.nbytes
  | rbRead i =>
    rcases Nat.lt_or_ge i.toNat Config.hexCap with hi | hi
    · rw [readPort_rbRead hi, readPort_rbRead hi]
      exact sameRead_emit (sameSpecified_fixedOrFree h (sameSpecified_rbByte h _)) (Output.rbRead i)
    · rw [readPort_rbRead_refused hi, readPort_rbRead_refused hi]
      rfl
  | recCount => exact sameRead_emit (sameSpecified_fixedOrFree h (sameSpecified_viewByte h 0)) Output.recCount
  | recAddr => exact sameRead_emit (sameSpecified_readRecAddr h) Output.recAddr
  | recType => exact sameRead_emit (sameSpecified_fixedOrFree h (sameSpecified_viewByte h 3)) Output.recType
  | recPayload k => exact sameRead_emit (sameSpecified_fixedOrFree h (hpayload k.toNat)) (Output.recPayload k)
  | recChecksum => exact sameRead_emit (sameSpecified_fixedOrFree h hchecksum) Output.recChecksum

/-- Settles O38: the same thing is presented on both sides, and it answers alike. -/
theorem unspecifiedStorageIsUnobservable : Obligations.UnspecifiedStorageIsUnobservable := by
  intro s t h
  have hpend := sameSpecified_pending h
  rcases hs : s.pending with _ | ⟨c | p | _, rest⟩
  · rw [step_nil hs, step_nil (hpend ▸ hs)]
    exact h
  · rw [step_op hs, step_op (hpend ▸ hs)]
    exact sameSpecified_exec (sameSpecified_setPending h rest) (decode c)
  · rw [step_read hs, step_read (hpend ▸ hs)]
    exact sameSpecified_readPort (sameSpecified_setPending h rest) p
  · rw [step_reset hs, step_reset (hpend ▸ hs)]
    exact sameSpecified_resetBlock (sameSpecified_setPending h rest)

end Sys2Proof.Proofs
end

section
namespace Sys2Proof.Proofs

open Sys2Proof.Machine Sys2Proof.Laws

/-! ### Texts

What the characters of a line do, one after another (41_hex_decoder.md R95): `TextEffect` compares the state after a
text with the bytes and the stop of the whole-line procedure. -/

/-! #### Operations in sequence -/

theorem performAll_cons {i : Instr} {s t : State} (h : exec i s = .next t) (is : List Instr) :
    performAll (i :: is) s = performAll is t := by
  simp [performAll, h]

theorem performAll_append (is js : List Instr) (s : State) :
    performAll (is ++ js) s = andThen (performAll is s) (performAll js) := by
  induction is generalizing s with
  | nil => rfl
  | cons i is ih =>
    simp only [List.cons_append, performAll]
    cases exec i s with
    | next t => exact ih t
    | fault f => rfl
    | refused x => rfl

/-! #### One character -/

/-- The character ends no line. -/
abbrev NoTerminator (c : Byte) : Prop := c ≠ Config.hxLfCode ∧ c ≠ Config.hxCrCode

theorem isLine_cons {c : Byte} {cs : List Byte} : isLine (c :: cs) = true ↔ NoTerminator c ∧ isLine cs = true := by
  simp [isLine]

/-- The rows of R59 give a digit the value that R49 gives its character. -/
theorem digitValue_decodeHx : ∀ c : Byte, digitValue (decodeHx c) = nib c := by decide

/-- What is no digit, no marker and no terminator is left to the default row (R48, R59). -/
theorem isOtherCode_of_nib_none :
    ∀ c : Byte, nib c = none → c ≠ Config.hxSorCode → NoTerminator c → isOtherCode c = true := by decide

theorem exec_decodeHx_digit {c : Byte} {v : Nibble} (h : nib c = some v) : exec (decodeHx c) = hxDigit v :=
  exec_of_digitValue (by rw [digitValue_decodeHx, h])

/-- A character that ends no line is a hex digit, the marker or another character. -/
theorem exec_decodeHx_cases {c : Byte} (hc : NoTerminator c) :
    (∃ v, nib c = some v ∧ exec (decodeHx c) = hxDigit v)
      ∨ (nib c = none ∧ c = Config.hxSorCode ∧ exec (decodeHx c) = execHxSor)
      ∨ (nib c = none ∧ c ≠ Config.hxSorCode ∧ exec (decodeHx c) = execHxOther) := by
  rcases hv : nib c with _ | v
  · by_cases hm : c = Config.hxSorCode
    · subst hm
      exact .inr (.inl ⟨rfl, rfl, rfl⟩)
    · exact .inr (.inr ⟨rfl, hm, by rw [decodeHx_of_isOtherCode c (isOtherCode_of_nib_none c hv hm hc)]; rfl⟩)
  · exact .inl ⟨v, rfl, exec_decodeHx_digit hv⟩

/-- In SKIP a character that ends no line does nothing (R96). -/
theorem exec_decodeHx_skip {c : Byte} {s : State} (hc : NoTerminator c) (hp : s.hxPhase = .skip) :
    exec (decodeHx c) s = .next s := by
  rcases exec_decodeHx_cases hc with ⟨v, -, he⟩ | ⟨-, -, he⟩ | ⟨-, -, he⟩
  · rw [he, hxDigit_ignored v (.inr hp)]
  · simp [he, execHxSor, hp]
  · simp [he, execHxOther, hp]

/-- In SEEK only the marker does anything (R96). -/
theorem exec_decodeHx_seek {c : Byte} {s : State} (hc : NoTerminator c) (hm : c ≠ Config.hxSorCode)
    (hp : s.hxPhase = .seek) : exec (decodeHx c) s = .next s := by
  rcases exec_decodeHx_cases hc with ⟨v, -, he⟩ | ⟨-, hm', -⟩ | ⟨-, -, he⟩
  · rw [he, hxDigit_ignored v (.inl hp)]
  · exact absurd hm' hm
  · simp [he, execHxOther, hp]

theorem exec_decodeHx_marker {s : State} (hp : s.hxPhase = .seek) :
    exec (decodeHx Config.hxSorCode) s = .next (startRecord s) := by
  have he : exec (decodeHx Config.hxSorCode) s = execHxSor s := rfl
  simp [he, execHxSor, hp]

/-- Where a digit is expected, a character that is none and ends no line is malformed (R81, R87). -/
theorem exec_decodeHx_nonDigit {c : Byte} {s : State} (hc : NoTerminator c) (hv : nib c = none)
    (hp : s.hxPhase = .hi ∨ s.hxPhase = .lo) : exec (decodeHx c) s = .next (raiseCause .badDigit s) := by
  rcases exec_decodeHx_cases hc with ⟨v, hv', -⟩ | ⟨-, -, he⟩ | ⟨-, -, he⟩
  · simp [hv] at hv'
  · rcases hp with hp | hp <;> simp [he, execHxSor, hxNonDigit, hp]
  · rcases hp with hp | hp <;> simp [he, execHxOther, hxNonDigit, hp]

/-- In SKIP a text without a terminator is absorbed (R96, R148). -/
theorem performAll_hxText_skip {cs : List Byte} {s : State} (hl : isLine cs = true) (hp : s.hxPhase = .skip) :
    performAll (hxText cs) s = .next s := by
  induction cs with
  | nil => rfl
  | cons c cs ih =>
    obtain ⟨hc, hcs⟩ := isLine_cons.mp hl
    exact (performAll_cons (exec_decodeHx_skip hc hp) _).trans (ih hcs)

/-! #### The whole-line procedure, case by case -/

/-- Why the consumption of bytes stops (R95), with room for `m` bytes. -/
def textStop (m : Nat) (cs : List Byte) : Stop :=
  stopOf ((pairBytes m cs).length == m) (cs.drop (2 * (pairBytes m cs).length))

@[simp] theorem textStop_hexCap (cs : List Byte) : textStop Config.hexCap cs = lineStop cs := rfl

theorem pairBytes_length_le (m : Nat) (cs : List Byte) : (pairBytes m cs).length ≤ m := by
  induction m, cs using pairBytes.induct with
  | case1 => simp [pairBytes]
  | case2 => simp [pairBytes]
  | case3 => simp [pairBytes]
  | case4 m c1 c2 cs high low h1 h2 ih => simpa [pairBytes, h1, h2] using ih
  | case5 m c1 c2 cs h => simp [pairBytes]

theorem pairBytes_nonDigit {c : Byte} (hv : nib c = none) (m : Nat) (cs : List Byte) : pairBytes m (c :: cs) = [] := by
  rcases m with _ | m
  · rfl
  · rcases cs with _ | ⟨c2, cs⟩
    · rfl
    · simp [pairBytes, hv]

theorem pairBytes_lonely {c2 : Byte} (hv : nib c2 = none) (m : Nat) (c1 : Byte) (cs : List Byte) :
    pairBytes m (c1 :: c2 :: cs) = [] := by
  rcases m with _ | m
  · rfl
  · simp [pairBytes, hv]

theorem pairBytes_pair {c1 c2 : Byte} {high low : Nibble} (h1 : nib c1 = some high) (h2 : nib c2 = some low) (m : Nat)
    (cs : List Byte) : pairBytes (m + 1) (c1 :: c2 :: cs) = byteOfPair high low :: pairBytes m cs := by
  simp [pairBytes, h1, h2]

/-- With no pair decoded the text itself says why. -/
theorem textStop_of_no_pair {m : Nat} {cs : List Byte} (h : pairBytes m cs = []) :
    textStop m cs = stopOf (0 == m) cs := by
  simp [textStop, h]

/-- A pair moves the stop along. -/
theorem textStop_pair {c1 c2 : Byte} {high low : Nibble} (h1 : nib c1 = some high) (h2 : nib c2 = some low) (m : Nat)
    (cs : List Byte) : textStop (m + 1) (c1 :: c2 :: cs) = textStop m cs := by
  simp [textStop, pairBytes_pair h1 h2, Nat.mul_add]

/-! #### The operations compute it -/

/-- What the text `cs` leaves of a state in HI with room for `m` bytes (R95): the bytes of its pairs are appended to the
buffer, the count and the sum, and phase and flags say why consumption stopped. -/
structure TextEffect (m : Nat) (cs : List Byte) (s t : State) : Prop where
  frame : t = { s with
    hxPhase := stopPhase (textStop m cs)
    hxNib := t.hxNib
    hxN := s.hxN + BitVec.ofNat 9 (pairBytes m cs).length
    hxSum := s.hxSum + sumBytes (pairBytes m cs)
    hxBad := textStop m cs == .malformed
    hxOvf := textStop m cs == .capacity
    hxRb := t.hxRb }
  held : ∀ v, textStop m cs = .heldDigit v → t.hxNib = v
  written : ∀ i < (pairBytes m cs).length, Memory.read t.hxRb (s.hxN.toNat + i) = (pairBytes m cs)[i]?
  kept : ∀ a, a < s.hxN.toNat ∨ s.hxN.toNat + (pairBytes m cs).length ≤ a → Memory.read t.hxRb a = Memory.read s.hxRb a

/-- With no pair decoded, a text changes the phase, the held digit and the flags only. -/
theorem textEffect_of_no_pair {m : Nat} {cs : List Byte} {s t : State} {stop : Stop} (hb : pairBytes m cs = [])
    (hstop : stopOf (0 == m) cs = stop) (hheld : ∀ v, stop = .heldDigit v → t.hxNib = v)
    (ht : t = { s with
      hxPhase := stopPhase stop
      hxNib := t.hxNib
      hxBad := stop == .malformed
      hxOvf := stop == .capacity }) : TextEffect m cs s t := by
  have hstop' : textStop m cs = stop := (textStop_of_no_pair hb).trans hstop
  have hrb : t.hxRb = s.hxRb := by rw [ht]
  constructor
  case frame =>
    refine ht.trans ?_
    simp [hstop', hb, sumBytes, hrb]
  case held => rwa [hstop']
  case written => simp [hb]
  case kept => simp [hrb]

/-- The state in which a record's bytes are taken: HI, with clear flags and room for `m` bytes. -/
structure TakesBytes (m : Nat) (s : State) : Prop where
  hi : s.hxPhase = .hi
  bad : s.hxBad = false
  ovf : s.hxOvf = false
  room : s.hxN.toNat + m = Config.hexCap

theorem TakesBytes.fits {m : Nat} {s : State} (h : TakesBytes (m + 1) s) : s.hxN.toNat < Config.hexCap := by
  have := h.room
  omega

/-- The state after a pair. -/
def afterPair (high low : Nibble) (s : State) : State := commitByte (byteOfPair high low) (holdNibble high s)

theorem TakesBytes.afterPair {m : Nat} {s : State} (h : TakesBytes (m + 1) s) (high low : Nibble) :
    TakesBytes m (afterPair high low s) where
  hi := rfl
  bad := h.bad
  ovf := h.ovf
  room := by
    have hn : (Proofs.afterPair high low s).hxN.toNat = s.hxN.toNat + 1 := toNat_count_succ h.fits
    have := h.room
    omega

theorem exec_high_digit {m : Nat} {c : Byte} {v : Nibble} {s : State} (h : TakesBytes (m + 1) s)
    (hv : nib c = some v) : exec (decodeHx c) s = .next (holdNibble v s) := by
  rw [exec_decodeHx_digit hv, hxDigit_hi_held v h.hi h.fits]

theorem exec_low_digit {m : Nat} {c : Byte} {v low : Nibble} {s : State} (h : TakesBytes (m + 1) s)
    (hv : nib c = some low) : exec (decodeHx c) (holdNibble v s) = .next (afterPair v low s) := by
  rw [exec_decodeHx_digit hv, hxDigit_lo low (holdNibble_hxPhase v s) h.fits]
  rfl

/-- A malformed digit stops consumption for the rest of the line. -/
theorem performAll_hxText_malformed {c : Byte} {cs : List Byte} {s : State} (hl : isLine (c :: cs) = true)
    (hv : nib c = none) (hp : s.hxPhase = .hi ∨ s.hxPhase = .lo) :
    performAll (hxText (c :: cs)) s = .next (raiseCause .badDigit s) := by
  obtain ⟨hc, hcs⟩ := isLine_cons.mp hl
  exact (performAll_cons (exec_decodeHx_nonDigit hc hv hp) _).trans (performAll_hxText_skip hcs rfl)

/-- A digit with the buffer full stops consumption for the rest of the line. -/
theorem performAll_hxText_full {c : Byte} {v : Nibble} {cs : List Byte} {s : State} (hl : isLine (c :: cs) = true)
    (hv : nib c = some v) (h : TakesBytes 0 s) :
    performAll (hxText (c :: cs)) s = .next (raiseCause .overrun s) := by
  obtain ⟨-, hcs⟩ := isLine_cons.mp hl
  have he : exec (decodeHx c) s = .next (raiseCause .overrun s) := by
    rw [exec_decodeHx_digit hv, hxDigit_hi_full v h.hi (Nat.le_of_eq h.room.symm)]
  exact (performAll_cons he _).trans (performAll_hxText_skip hcs rfl)

/-- The effect of a text that goes on after a pair. -/
theorem textEffect_pair {m : Nat} {c1 c2 : Byte} {high low : Nibble} {cs : List Byte} {s t : State}
    (hs : TakesBytes (m + 1) s) (h1 : nib c1 = some high) (h2 : nib c2 = some low)
    (h : TextEffect m cs (afterPair high low s) t) : TextEffect (m + 1) (c1 :: c2 :: cs) s t := by
  have hn : (afterPair high low s).hxN.toNat = s.hxN.toNat + 1 := toNat_count_succ hs.fits
  have hstop := textStop_pair h1 h2 m cs
  have hbytes := pairBytes_pair h1 h2 m cs
  have hrb : (afterPair high low s).hxRb = Memory.write s.hxRb s.hxN.toNat (byteOfPair high low) := rfl
  obtain ⟨hframe, hheld, hwritten, hkept⟩ := h
  constructor
  case frame =>
    refine hframe.trans ?_
    simp [afterPair, commitByte, holdNibble, hstop, hbytes, sumBytes, BitVec.add_assoc, BitVec.ofNat_add,
      BitVec.add_comm 1#9]
  case held => rwa [hstop]
  case written =>
    intro i hi
    rw [hbytes] at hi ⊢
    rcases i with _ | i
    · rw [hkept _ (.inl (by omega)), hrb]
      simp
    · have hread := hwritten i (by simpa using hi)
      rw [hn] at hread
      simpa [Nat.add_assoc, Nat.add_comm 1] using hread
  case kept =>
    intro a ha
    rw [hbytes, List.length_cons] at ha
    rw [hkept a (by omega), hrb, read_write_other _ _ (by omega)]

/-- The end of the text after a pair: nothing happens. -/
theorem textEffect_nil {m : Nat} {s : State} (hs : TakesBytes m s) : TextEffect m [] s s := by
  obtain ⟨hp, hb, ho, -⟩ := hs
  refine textEffect_of_no_pair (stop := .clean) (by cases m <;> rfl) rfl nofun ?_
  cases s
  simp_all [stopPhase]

/-- A character that is no digit comes where a high digit is expected. -/
theorem textEffect_nonDigit {m : Nat} {c : Byte} {s : State} (hs : TakesBytes m s) (hv : nib c = none)
    (cs : List Byte) : TextEffect m (c :: cs) s (raiseCause .badDigit s) := by
  refine textEffect_of_no_pair (stop := .malformed) (pairBytes_nonDigit hv m cs) (by simp [stopOf, hv]) nofun ?_
  simp [raiseCause, stopPhase, hs.ovf]

/-- A digit comes with the buffer full. -/
theorem textEffect_full {c : Byte} {v : Nibble} {s : State} (hs : TakesBytes 0 s) (hv : nib c = some v)
    (cs : List Byte) : TextEffect 0 (c :: cs) s (raiseCause .overrun s) := by
  refine textEffect_of_no_pair (stop := .capacity) rfl (by simp [stopOf, hv]) nofun ?_
  simp [raiseCause, stopPhase, hs.bad]

/-- The text ends with one digit of a pair. -/
theorem textEffect_lonely_digit {m : Nat} {c : Byte} {v : Nibble} {s : State} (hs : TakesBytes (m + 1) s)
    (hv : nib c = some v) : TextEffect (m + 1) [c] s (holdNibble v s) := by
  refine textEffect_of_no_pair (stop := .heldDigit v) rfl (by simp [stopOf, hv]) (fun w hw => by cases hw; rfl) ?_
  simp [holdNibble, stopPhase, hs.bad, hs.ovf]

/-- A character that is no digit comes after the high digit of a pair. -/
theorem textEffect_broken_pair {m : Nat} {c1 c2 : Byte} {v : Nibble} {s : State} (hs : TakesBytes (m + 1) s)
    (h1 : nib c1 = some v) (h2 : nib c2 = none) (cs : List Byte) :
    TextEffect (m + 1) (c1 :: c2 :: cs) s (raiseCause .badDigit (holdNibble v s)) := by
  refine textEffect_of_no_pair (stop := .malformed) (pairBytes_lonely h2 _ c1 cs) (by simp [stopOf, h1]) nofun ?_
  simp [raiseCause, holdNibble, stopPhase, hs.ovf]

/-- The characters after the marker, from a state that takes `m` more bytes (R95): by induction on that room, one pair at
a time, until consumption stops. -/
theorem performAll_hxText_textEffect {m : Nat} {cs : List Byte} {s : State} (hl : isLine cs = true)
    (hs : TakesBytes m s) : ∃ t, performAll (hxText cs) s = .next t ∧ TextEffect m cs s t := by
  induction m generalizing cs s with
  | zero =>
    rcases cs with _ | ⟨c, cs⟩
    · exact ⟨s, rfl, textEffect_nil hs⟩
    rcases hv : nib c with _ | v
    · exact ⟨_, performAll_hxText_malformed hl hv (.inl hs.hi), textEffect_nonDigit hs hv cs⟩
    · exact ⟨_, performAll_hxText_full hl hv hs, textEffect_full hs hv cs⟩
  | succ m ih =>
    rcases cs with _ | ⟨c1, cs⟩
    · exact ⟨s, rfl, textEffect_nil hs⟩
    rcases h1 : nib c1 with _ | high
    · exact ⟨_, performAll_hxText_malformed hl h1 (.inl hs.hi), textEffect_nonDigit hs h1 cs⟩
    have hhigh : performAll (hxText (c1 :: cs)) s = performAll (hxText cs) (holdNibble high s) :=
      performAll_cons (exec_high_digit hs h1) _
    obtain ⟨-, hl2⟩ := isLine_cons.mp hl
    rw [hhigh]
    rcases cs with _ | ⟨c2, cs⟩
    · exact ⟨_, rfl, textEffect_lonely_digit hs h1⟩
    rcases h2 : nib c2 with _ | low
    · exact ⟨_, performAll_hxText_malformed hl2 h2 (.inr rfl), textEffect_broken_pair hs h1 h2 cs⟩
    have hlow : performAll (hxText (c2 :: cs)) (holdNibble high s) = performAll (hxText cs) (afterPair high low s) :=
      performAll_cons (exec_low_digit hs h2) _
    obtain ⟨-, hl3⟩ := isLine_cons.mp hl2
    obtain ⟨t, ht, heffect⟩ := ih hl3 (hs.afterPair high low)
    exact ⟨t, hlow.trans ht, textEffect_pair hs h1 h2 heffect⟩

/-! #### A line from its start -/

/-- Without a marker a line does nothing. -/
theorem performAll_hxText_no_marker {line : List Byte} {s : State} (hl : isLine line = true) (hp : s.hxPhase = .seek)
    (hm : afterMarker line = none) : performAll (hxText line) s = .next s := by
  induction line with
  | nil => rfl
  | cons c line ih =>
    obtain ⟨hc, hl⟩ := isLine_cons.mp hl
    by_cases hsor : c = Config.hxSorCode
    · simp [afterMarker, hsor] at hm
    · exact (performAll_cons (exec_decodeHx_seek hc hsor hp) _).trans (ih hl (by simpa [afterMarker, hsor] using hm))

/-- What stands before the first marker does nothing, and the marker opens the record. -/
theorem performAll_hxText_marker {line cs : List Byte} {s : State} (hl : isLine line = true) (hp : s.hxPhase = .seek)
    (hm : afterMarker line = some cs) :
    isLine cs = true ∧ performAll (hxText line) s = performAll (hxText cs) (startRecord s) := by
  induction line with
  | nil => simp [afterMarker] at hm
  | cons c line ih =>
    obtain ⟨hc, hl⟩ := isLine_cons.mp hl
    by_cases hsor : c = Config.hxSorCode
    · subst hsor
      obtain rfl : line = cs := by simpa [afterMarker] using hm
      exact ⟨hl, performAll_cons (exec_decodeHx_marker hp) _⟩
    · obtain ⟨hcs, hrun⟩ := ih hl (by simpa [afterMarker, hsor] using hm)
      exact ⟨hcs, (performAll_cons (exec_decodeHx_seek hc hsor hp) _).trans hrun⟩

theorem takesBytes_startRecord {s : State} (h : LineStart s) : TakesBytes Config.hexCap (startRecord s) := by
  obtain ⟨-, hb, ho⟩ := h
  exact ⟨rfl, hb, ho, by simp⟩

/-- What a line with a marker leaves (R95). -/
theorem performAll_hxText_line {line cs : List Byte} {s : State} (hl : isLine line = true) (hs : LineStart s)
    (hm : afterMarker line = some cs) :
    ∃ t, performAll (hxText line) s = .next t ∧ TextEffect Config.hexCap cs (startRecord s) t := by
  have hp : s.hxPhase = .seek := hs.1
  obtain ⟨hcs, hrun⟩ := performAll_hxText_marker hl hp hm
  rw [hrun]
  exact performAll_hxText_textEffect hcs (takesBytes_startRecord hs)

/-! #### Its verdict -/

/-- Nothing of a line without a marker is looked at but that (R89, R122). -/
theorem verdictUnder_no_marker (p : Config.StopPolicy) {line : List Byte} {s : State} (hs : LineStart s)
    (hm : afterMarker line = none) : verdictUnder p s = lineVerdict p line := by
  obtain ⟨hp, hb, ho⟩ := hs
  have herr : errMask s = lineErr line := by
    simp [errMask, causeApplies, markerFound, lineErr, causeMask, hm, hp, hb, ho]
  simp [verdictUnder, lineVerdict, markerFound, herr, hm, hp]

theorem stopPhase_ne_seek (stop : Stop) : (stopPhase stop != .seek) = true := by cases stop <;> rfl

theorem stopIsBadDigit_eq (stop : Stop) : (stop == .malformed || stopPhase stop == .lo) = stopIsBadDigit stop := by
  cases stop <;> rfl

/-- The count is zero exactly when no byte was decoded: it does not wrap (R34). -/
theorem count_eq_zero_iff (cs : List Byte) :
    (BitVec.ofNat 9 (pairBytes Config.hexCap cs).length == 0#9) = (pairBytes Config.hexCap cs == []) := by
  have hle : (pairBytes Config.hexCap cs).length ≤ 261 := pairBytes_length_le _ cs
  rw [Bool.eq_iff_iff, beq_iff_eq, beq_iff_eq, ← List.length_eq_zero_iff]
  constructor
  · intro h
    bv_omega
  · intro h
    rw [h]

/-- The registers say of a line with a marker what the whole-line procedure says (R89, R95). -/
theorem verdictUnder_marker (p : Config.StopPolicy) {line cs : List Byte} {s t : State}
    (hm : afterMarker line = some cs) (h : TextEffect Config.hexCap cs (startRecord s) t) :
    verdictUnder p t = lineVerdict p line := by
  have hphase : t.hxPhase = stopPhase (lineStop cs) := by rw [h.frame]; simp
  have hn : t.hxN = BitVec.ofNat 9 (lineBytes cs).length := by rw [h.frame]; simp [lineBytes]
  have hsum : t.hxSum = sumBytes (lineBytes cs) := by rw [h.frame]; simp [lineBytes]
  have hbad : t.hxBad = (lineStop cs == .malformed) := by rw [h.frame]; simp
  have hovf : t.hxOvf = (lineStop cs == .capacity) := by rw [h.frame]; simp
  have hfound : markerFound t = true := by rw [markerFound, hphase, stopPhase_ne_seek]
  have hempty : (t.hxN == 0#9) = (lineBytes cs == []) := by rw [hn]; exact count_eq_zero_iff cs
  have herr : errMask t = lineErr line := by
    simp only [errMask, causeApplies, lineErr, hm, hfound, hbad, hphase, stopIsBadDigit_eq, hovf, bne, hempty, hsum]
    simp [causeMask]
  simp [verdictUnder, lineVerdict, herr, hfound, hn, hm]

/-- The text of a line leaves its own verdict to be read from the registers, and puts nothing out. -/
theorem performAll_hxText_verdict (p : Config.StopPolicy) {line : List Byte} {s : State} (hl : isLine line = true)
    (hs : LineStart s) :
    ∃ t, performAll (hxText line) s = .next t ∧ t.outputs = s.outputs ∧ verdictUnder p t = lineVerdict p line := by
  rcases hm : afterMarker line with _ | cs
  · have hp : s.hxPhase = .seek := hs.1
    exact ⟨s, performAll_hxText_no_marker hl hp hm, rfl, verdictUnder_no_marker p hs hm⟩
  · obtain ⟨t, ht, heffect⟩ := performAll_hxText_line hl hs hm
    exact ⟨t, ht, by rw [heffect.frame]; rfl, verdictUnder_marker p hm heffect⟩

/-- Settles O50: the terminator puts out the verdict the text has left, and nothing else is put out. -/
theorem verdictDependsOnOwnLineOnly : Obligations.VerdictDependsOnOwnLineOnly := by
  intro line i s hl hi hs
  obtain ⟨t, ht, hout, hverdict⟩ := performAll_hxText_verdict .strict hl hs
  refine ⟨hxEndLine t, ?_, ⟨rfl, rfl, rfl⟩, ?_⟩
  · rw [performAll_append, ht, andThen_next, performAll_cons (congrFun (exec_of_isEolOp hi) t)]
    rfl
  · rw [hxEndLine_outputs, hout, ← hverdict]
    rfl

end Sys2Proof.Proofs
end

section
namespace Sys2Proof.Proofs

open Sys2Proof.Machine Sys2Proof.Laws

/-! ### The record buffer and its one writer (20_memory.md R31, 41_hex_decoder.md R85) -/

/-- The operations with a value are the digit operations (R48, R49). -/
theorem isSome_digitValue (i : Instr) : (digitValue i).isSome = isDigitOp i := by cases i <;> rfl

theorem exec_of_isDigitOp {i : Instr} (h : isDigitOp i = true) : ∃ v, exec i = hxDigit v := by
  obtain ⟨v, hv⟩ := Option.isSome_iff_exists.mp ((isSome_digitValue i).trans h)
  exact ⟨v, exec_of_digitValue hv⟩

/-- A digit completes wherever a held digit fits: only a commit outside the buffer faults (R80, R85). -/
theorem hxDigit_completes (v : Nibble) {s : State} (h : HeldDigitFits s) : ∃ t, hxDigit v s = .next t := by
  rcases hp : s.hxPhase with _ | _ | _ | _
  · exact ⟨_, hxDigit_ignored v (.inl hp)⟩
  · rcases Nat.lt_or_ge s.hxN.toNat Config.hexCap with hn | hn
    · exact ⟨_, hxDigit_hi_held v hp hn⟩
    · exact ⟨_, hxDigit_hi_full v hp hn⟩
  · exact ⟨_, hxDigit_lo v hp (h hp)⟩
  · exact ⟨_, hxDigit_ignored v (.inr hp)⟩

theorem execHxSor_completes (s : State) : ∃ t, execHxSor s = .next t := by
  unfold execHxSor
  cases s.hxPhase <;> exact ⟨_, rfl⟩

theorem execHxOther_completes (s : State) : ∃ t, execHxOther s = .next t := by
  unfold execHxOther
  cases s.hxPhase <;> exact ⟨_, rfl⟩

/-- Every operation completes wherever a held digit fits (R80, R132). -/
theorem exec_completes (i : Instr) {s : State} (h : HeldDigitFits s) : ∃ t, exec i s = .next t := by
  rcases exec_cases i s with ⟨-, -, -, v, he⟩ | ⟨-, he⟩ | ⟨-, -, -, he⟩ | ⟨-, -, he⟩ | ⟨-, -, seed, -, he⟩
    | ⟨-, -, x, b, -, he⟩
  all_goals rw [he]
  · exact hxDigit_completes v h
  · exact execHxSor_completes s
  · exact ⟨_, rfl⟩
  · exact execHxOther_completes s
  · exact ⟨_, rfl⟩
  · exact ⟨_, execCrcByte_eq b s⟩

/-- The low digit of a pair commits the byte whose high nibble is the held one (R85). -/
theorem exec_digit_lo {i : Instr} {s : State} (hd : isDigitOp i = true) (hp : s.hxPhase = .lo)
    (hn : s.hxN.toNat < Config.hexCap) : ∃ v, exec i s = .next (commitByte (byteOfPair s.hxNib v) s) := by
  obtain ⟨v, he⟩ := exec_of_isDigitOp hd
  exact ⟨v, by rw [he, hxDigit_lo v hp hn]⟩

/-- The commit is the only writer of the record buffer (R31). -/
theorem ExecEffect.hxRb_frame {i : Instr} {s t : State} (h : ExecEffect i s t)
    (hc : ¬(isDigitOp i = true ∧ s.hxPhase = .lo)) : t.hxRb = s.hxRb := by
  cases h with
  | committed b hd hp => exact absurd ⟨hd, hp⟩ hc
  | ignored => rfl
  | started => rfl
  | held => rfl
  | overrun => rfl
  | malformed => rfl
  | ended => rfl
  | crc => rfl

/-- Settles O20: a digit in LO is a commit, which writes the index `hx_n`; every other operation leaves the buffer. -/
theorem commitsStayInBuffer : Obligations.CommitsStayInBuffer := by
  intro i s hfits
  by_cases hc : isDigitOp i = true ∧ s.hxPhase = .lo
  · obtain ⟨hd, hp⟩ := hc
    have hn : s.hxN.toNat < Config.hexCap := hfits hp
    obtain ⟨v, he⟩ := exec_digit_lo hd hp hn
    exact ⟨_, he,
      fun _ _ => ⟨hn, toNat_count_succ hn, ⟨v, read_write_same _ _ _⟩, fun a ha => read_write_other _ _ ha⟩,
      fun hc => absurd ⟨hd, hp⟩ hc, fun hwf => wf_write _ hwf hn⟩
  · obtain ⟨t, he⟩ := exec_completes i hfits
    have hrb : t.hxRb = s.hxRb := (execEffect_of_exec he).hxRb_frame hc
    exact ⟨t, he, fun hd hp => absurd ⟨hd, hp⟩ hc, fun _ => hrb, fun hwf => hrb ▸ hwf⟩

end Sys2Proof.Proofs
end

section
namespace Sys2Proof.Proofs

open Sys2Proof.Machine Sys2Proof.Laws

/-! ### Operations of the two units in either order (20_memory.md R39)

An operation of the CRC unit rewrites the CRC part of the state by a function of that part alone; an operation of the
HEX unit neither looks at that part nor changes it. -/

/-- The part of the state that the CRC unit reads and writes, with the model's mark and count of draws (logs 4, 7). -/
structure CrcPart where
  acc : Word
  spec : Bool
  draws : Nat

def crcPart (s : State) : CrcPart := ⟨s.crcAcc, s.crcSpec, s.draws⟩

/-- The state with its CRC part replaced. -/
def withCrcPart (c : CrcPart) (s : State) : State :=
  { s with crcAcc := c.acc, crcSpec := c.spec, draws := c.draws }

@[simp] theorem withCrcPart_hxPhase (c : CrcPart) (s : State) : (withCrcPart c s).hxPhase = s.hxPhase := rfl

/-- `CRC.BYTE` on the CRC part: the accumulator it folds into is free before `CRC.INIT` (R68, R138). -/
def CrcPart.addByte (b : Byte) (c : CrcPart) : CrcPart :=
  if c.spec then { c with acc := crcStep c.acc b }
  else { c with acc := crcStep (Config.unspecWord c.draws) b, draws := c.draws + 1 }

theorem execCrcByte_eq_withCrcPart (b : Byte) (s : State) :
    execCrcByte b s = .next (withCrcPart ((crcPart s).addByte b) s) := by
  rw [execCrcByte_eq]
  rcases hs : s.crcSpec with _ | _
  · simp [readAcc_free hs, withCrcPart, CrcPart.addByte, crcPart, hs]
  · simp [readAcc_spec hs, withCrcPart, CrcPart.addByte, crcPart, hs]

/-- What an operation of the CRC unit writes is a function of the CRC part alone (R67, R68). -/
theorem exec_crc_eq_withCrcPart {i : Instr} (h : unitOf i = .crc) :
    ∃ f : CrcPart → CrcPart, ∀ s, exec i s = .next (withCrcPart (f (crcPart s)) s) := by
  cases i with
  | crcInit seed => exact ⟨fun c => ⟨seed, true, c.draws⟩, fun s => rfl⟩
  | crcByte x b => exact ⟨CrcPart.addByte b, execCrcByte_eq_withCrcPart b⟩
  | _ => cases h

/-- The operation is blind to the CRC part: replacing that part before it or after it is the same. -/
def IgnoresCrcPart (f : State → StepResult) : Prop :=
  ∀ c s, f (withCrcPart c s) = andThen (f s) fun t => .next (withCrcPart c t)

theorem hxDigit_ignoresCrcPart (v : Nibble) : IgnoresCrcPart (hxDigit v) := by
  intro c s
  have hphase := withCrcPart_hxPhase c s
  rcases hp : s.hxPhase with _ | _ | _ | _
  · rw [hxDigit_ignored v (.inl hp), hxDigit_ignored v (.inl (hphase.trans hp)), andThen_next]
  · rcases Nat.lt_or_ge s.hxN.toNat Config.hexCap with hn | hn
    · rw [hxDigit_hi_held v hp hn, hxDigit_hi_held v (hphase.trans hp) hn]
      rfl
    · rw [hxDigit_hi_full v hp hn, hxDigit_hi_full v (hphase.trans hp) hn]
      rfl
  · rcases Nat.lt_or_ge s.hxN.toNat Config.hexCap with hn | hn
    · rw [hxDigit_lo v hp hn, hxDigit_lo v (hphase.trans hp) hn]
      rfl
    · rw [hxDigit_lo_fault v hp hn, hxDigit_lo_fault v (hphase.trans hp) hn]
      rfl
  · rw [hxDigit_ignored v (.inr hp), hxDigit_ignored v (.inr (hphase.trans hp)), andThen_next]

theorem execHxSor_ignoresCrcPart : IgnoresCrcPart execHxSor := by
  intro c s
  unfold execHxSor
  rw [withCrcPart_hxPhase]
  cases s.hxPhase <;> rfl

theorem execHxOther_ignoresCrcPart : IgnoresCrcPart execHxOther := by
  intro c s
  unfold execHxOther
  rw [withCrcPart_hxPhase]
  cases s.hxPhase <;> rfl

/-- The verdict looks at no part of the CRC unit (R89). -/
theorem hxEndLine_withCrcPart (c : CrcPart) (s : State) :
    hxEndLine (withCrcPart c s) = withCrcPart c (hxEndLine s) := rfl

theorem exec_hex_ignoresCrcPart {j : Instr} (h : unitOf j = .hex) : IgnoresCrcPart (exec j) := by
  cases j with
  | crcInit => cases h
  | crcByte => cases h
  | hxSor => exact execHxSor_ignoresCrcPart
  | hxEolLf => exact fun c s => congrArg Host.Outcome.next (hxEndLine_withCrcPart c s)
  | hxEolCr => exact fun c s => congrArg Host.Outcome.next (hxEndLine_withCrcPart c s)
  | hxDec07 v => exact hxDigit_ignoresCrcPart _
  | hxDec89 v => exact hxDigit_ignoresCrcPart _
  | hxAlphaA k => exact hxDigit_ignoresCrcPart _
  | hxAlphaBC k v => exact hxDigit_ignoresCrcPart _
  | hxAlphaDE k v => exact hxDigit_ignoresCrcPart _
  | hxAlphaF k => exact hxDigit_ignoresCrcPart _
  | hxOther c => exact execHxOther_ignoresCrcPart

/-- An operation of the HEX unit leaves the CRC part alone (R22(g)). -/
theorem crcPart_of_exec_hex {j : Instr} {s t : State} (hj : unitOf j = .hex) (h : exec j s = .next t) :
    crcPart t = crcPart s := by
  obtain ⟨hhex, -, -⟩ := unitsShareNoState j s t h
  obtain ⟨hacc, hspec, hdraws⟩ := hhex hj
  simp [crcPart, hacc, hspec, hdraws]

/-- Settles O34: the CRC unit's write is the same before and after the other operation, which does not see it. -/
theorem unitsCommute : Obligations.UnitsCommute := by
  intro i j s hi hj
  obtain ⟨f, hf⟩ := exec_crc_eq_withCrcPart hi
  rw [hf, andThen_next, exec_hex_ignoresCrcPart hj]
  rcases hs : exec j s with t | x | x
  · rw [andThen_next, andThen_next, hf, crcPart_of_exec_hex hj hs]
  · rfl
  · rfl

end Sys2Proof.Proofs
end

section
namespace Sys2Proof.Proofs

open Sys2Proof.Machine Sys2Proof.Laws

/-! ### Command words (30_encoding.md R46) -/

/-- A word with bit 32 clear is the word of its seed. -/
theorem initWord_extractLsb' {cmd : CrcCmd} (h : cmd.getLsbD 32 = false) : 0#1 ++ cmd.extractLsb' 0 32 = cmd := by
  refine BitVec.eq_of_getLsbD_eq fun i hi => ?_
  rw [initWord_bit]
  rcases Nat.lt_or_ge i 32 with hlt | hge
  · simp [hlt]
  · obtain rfl : i = 32 := by omega
    rw [h]
    exact BitVec.getLsbD_of_ge _ 32 (Nat.le_refl 32)

/-- A word with bit 32 set is the word of its ignored bits and its data byte. -/
theorem byteWord_extractLsb' {cmd : CrcCmd} (h : cmd.getLsbD 32 = true) :
    1#1 ++ cmd.extractLsb' 8 24 ++ cmd.extractLsb' 0 8 = cmd := by
  refine BitVec.eq_of_getLsbD_eq fun i hi => ?_
  rw [byteWord_bit]
  split_ifs with h8 h32
  · simp [h8]
  · have hlt : i - 8 < 24 := by omega
    have hadd : 8 + (i - 8) = i := by omega
    simp [hlt, hadd]
  · obtain rfl : i = 32 := by omega
    exact h.symm

/-- Bit 32 selects one of the two operations, and the word is that operation's. -/
theorem decodeCrc_cases (cmd : CrcCmd) :
    (cmd.getLsbD 32 = false ∧ decodeCrc cmd = .crcInit (cmd.extractLsb' 0 32))
      ∨ (cmd.getLsbD 32 = true ∧ decodeCrc cmd = .crcByte (cmd.extractLsb' 8 24) (cmd.extractLsb' 0 8)) := by
  rcases h : cmd.getLsbD 32 with _ | _
  · exact .inl ⟨rfl, by rw [decodeCrc, cmdOp, h]; rfl⟩
  · exact .inr ⟨rfl, by rw [decodeCrc, cmdOp, h]; rfl⟩

/-- Settles O2: bit 32 splits the command words, and `exec` does not look at the ignored bits. -/
theorem crcCommandWordFields : Obligations.CrcCommandWordFields :=
  ⟨decodeCrc_initWord, decodeCrc_byteWord, decodeCrc_cases, fun _ _ _ _ => rfl⟩

/-! ### The rows of the HEX port (30_encoding.md R59)

`decodeHx` is the operation of the first row that takes the code. Since the rows exclude each other, it is the operation
of any row that does. -/

/-- Rows 1 to 9, each with the operation it selects. -/
def hxOps : List (CodeRow × (Byte → Instr)) :=
  [(rowSor, fun _ => .hxSor), (rowEolLf, fun _ => .hxEolLf), (rowEolCr, fun _ => .hxEolCr),
    (rowDec07, fun c => .hxDec07 (c.extractLsb' 0 3)), (rowDec89, fun c => .hxDec89 (charLowBit c)),
    (rowAlphaA, fun c => .hxAlphaA (charCaseBit c)), (rowAlphaBC, fun c => .hxAlphaBC (charCaseBit c) (charLowBit c)),
    (rowAlphaDE, fun c => .hxAlphaDE (charCaseBit c) (charLowBit c)), (rowAlphaF, fun c => .hxAlphaF (charCaseBit c))]

theorem map_fst_hxOps : hxOps.map Prod.fst = hxRows := rfl

/-- The operation of the first row that takes the code; `HX.OTHER` where none does. -/
def firstOp : List (CodeRow × (Byte → Instr)) → Byte → Instr
  | [], c => .hxOther c
  | (r, f) :: ops, c => if r.takes c then f c else firstOp ops c

theorem decodeHx_eq_firstOp : decodeHx = firstOp hxOps := rfl

theorem takes_iff {r : CodeRow} {c : Byte} : r.takes c = true ↔ c &&& r.mask = r.pattern := beq_iff_eq

/-- No code is in both rows. -/
def Excludes (r q : CodeRow) : Prop := ∀ c : Byte, ¬(r.takes c = true ∧ q.takes c = true)

/-- Two rows whose patterns differ in a bit that both masks keep exclude each other. -/
theorem excludes_of_patterns_differ {r q : CodeRow} (h : r.pattern &&& q.mask ≠ q.pattern &&& r.mask) :
    Excludes r q := by
  rintro c ⟨hr, hq⟩
  refine h ?_
  rw [← takes_iff.mp hr, ← takes_iff.mp hq, BitVec.and_assoc, BitVec.and_assoc, BitVec.and_comm r.mask]

theorem pairwise_excludes_hxRows : hxRows.Pairwise Excludes := by
  have hdiffer : hxRows.Pairwise fun r q => r.pattern &&& q.mask ≠ q.pattern &&& r.mask := by decide
  exact hdiffer.imp excludes_of_patterns_differ

/-- Where the rows exclude each other, any row that takes the code is the first that does. -/
theorem firstOp_of_takes {ops : List (CodeRow × (Byte → Instr))} {op : CodeRow × (Byte → Instr)} {c : Byte}
    (hx : (ops.map Prod.fst).Pairwise Excludes) (hmem : op ∈ ops) (ht : op.1.takes c = true) :
    firstOp ops c = op.2 c := by
  induction ops with
  | nil => cases hmem
  | cons q ops ih =>
    obtain ⟨hq, hops⟩ := List.pairwise_cons.mp hx
    rcases List.mem_cons.mp hmem with rfl | hmem
    · simp [firstOp, ht]
    · have hnot : ¬q.1.takes c = true := fun hqc => hq op.1 (List.mem_map_of_mem hmem) c ⟨hqc, ht⟩
      simpa [firstOp, hnot] using ih hops hmem

/-- Some row takes the code and gives the operation, or none does and it is `HX.OTHER`. -/
theorem firstOp_cases (ops : List (CodeRow × (Byte → Instr))) (c : Byte) :
    (∃ op ∈ ops, op.1.takes c = true ∧ firstOp ops c = op.2 c)
      ∨ ((ops.map Prod.fst).all (fun r => !r.takes c) = true ∧ firstOp ops c = .hxOther c) := by
  induction ops with
  | nil => exact .inr ⟨rfl, rfl⟩
  | cons q ops ih =>
    rcases hq : q.1.takes c with _ | _
    · have hnext : firstOp (q :: ops) c = firstOp ops c := by simp [firstOp, hq]
      rw [hnext]
      rcases ih with ⟨op, hmem, ht, hop⟩ | ⟨hnone, hop⟩
      · exact .inl ⟨op, List.mem_cons_of_mem q hmem, ht, hop⟩
      · exact .inr ⟨by simpa [hq] using hnone, hop⟩
    · exact .inl ⟨q, List.mem_cons_self, hq, by simp [firstOp, hq]⟩

theorem decodeHx_cases (c : Byte) :
    (∃ op ∈ hxOps, op.1.takes c = true ∧ decodeHx c = op.2 c) ∨ (isOtherCode c = true ∧ decodeHx c = .hxOther c) := by
  rw [decodeHx_eq_firstOp, isOtherCode, ← map_fst_hxOps]
  exact firstOp_cases hxOps c

/-- A code in a row selects that row's operation. -/
theorem decode_of_row (i : Fin 9) {c : Byte} (h : c &&& (hxOps.get i).1.mask = (hxOps.get i).1.pattern) :
    decode (.hx c) = (hxOps.get i).2 c := by
  have hx : (hxOps.map Prod.fst).Pairwise Excludes := map_fst_hxOps ▸ pairwise_excludes_hxRows
  rw [decode, decodeHx_eq_firstOp]
  exact firstOp_of_takes hx (List.get_mem hxOps i) (takes_iff.mpr h)

/-- Settles O3: the list of rows, read row by row. -/
theorem characterRowsSelectOperations : Obligations.CharacterRowsSelectOperations :=
  ⟨pairwise_excludes_hxRows, fun c =>
    ⟨decode_of_row 0, decode_of_row 1, decode_of_row 2, decode_of_row 3, decode_of_row 4, decode_of_row 5,
      decode_of_row 6, decode_of_row 7, decode_of_row 8, decodeHx_of_isOtherCode c⟩⟩

/-! ### Every word is the word of the operation it is read as -/

/-- A row's operation can be presented, and a code in the row is its word: the mask keeps exactly the bits that are no
field of the operation. -/
theorem encode_hxOps : ∀ op ∈ hxOps, ∀ c : Byte, op.1.takes c = true →
    (op.2 c).wellFormed = true ∧ encode (op.2 c) = .hx c := by decide

theorem encode_decodeHx (c : Byte) : (decodeHx c).wellFormed = true ∧ encode (decodeHx c) = .hx c := by
  rcases decodeHx_cases c with ⟨op, hmem, ht, hop⟩ | ⟨hother, hop⟩
  · rw [hop]
    exact encode_hxOps op hmem c ht
  · rw [hop]
    exact ⟨hother, rfl⟩

theorem encode_decodeCrc (cmd : CrcCmd) :
    (decodeCrc cmd).wellFormed = true ∧ encode (decodeCrc cmd) = .crc cmd := by
  rcases decodeCrc_cases cmd with ⟨hbit, hop⟩ | ⟨hbit, hop⟩
  · rw [hop]
    exact ⟨rfl, congrArg Command.crc (initWord_extractLsb' hbit)⟩
  · rw [hop]
    exact ⟨rfl, congrArg Command.crc (byteWord_extractLsb' hbit)⟩

theorem encode_decode (c : Command) : (decode c).wellFormed = true ∧ encode (decode c) = c := by
  cases c with
  | crc cmd => exact encode_decodeCrc cmd
  | hx c => exact encode_decodeHx c

/-- Settles O1: the two directions. -/
theorem encodingsAndOperationsCorrespond : Obligations.EncodingsAndOperationsCorrespond :=
  ⟨decode_encode, encode_decode⟩

/-! ### Words as numbers (log 15) -/

theorem decodeTableWord_crc (cmd : CrcCmd) : decodeTableWord 40 cmd.toNat = some (decode (.crc cmd)) := by
  simp [decodeTableWord, commandOfWord, cmd.isLt]

theorem decodeTableWord_hx (c : Byte) : decodeTableWord 8 c.toNat = some (decode (.hx c)) := by
  simp [decodeTableWord, commandOfWord, c.isLt]

/-- Settles O5: each number is that of a word, which decodes by evaluation. -/
theorem writtenWordsDecode : Obligations.WrittenWordsDecode :=
  ⟨decodeTableWord_crc 0x0FFFFFFFF#33, decodeTableWord_crc 0x012345678#33, decodeTableWord_crc 0x1ABCDEF31#33,
    decodeTableWord_hx 0x3A#8, decodeTableWord_hx 0x37#8, decodeTableWord_hx 0x45#8, decodeTableWord_hx 0x66#8,
    decodeTableWord_hx 0xBA#8⟩

end Sys2Proof.Proofs
end

section
namespace Sys2Proof.Proofs

open Sys2Proof.Machine Sys2Proof.Laws

/-! ### Classes and values of characters (30_encoding.md R48, R49) -/

/-- The ranges of R48, in the codes' numbers. -/
theorem charClass_eq (c : Byte) :
    charClass c =
      if c.toNat = 0x3A then .sor
      else if c.toNat = 0x0A ∨ c.toNat = 0x0D then .eol
      else if 0x30 ≤ c.toNat ∧ c.toNat ≤ 0x39 then .dec
      else if (0x41 ≤ c.toNat ∧ c.toNat ≤ 0x46) ∨ (0x61 ≤ c.toNat ∧ c.toNat ≤ 0x66) then .alpha
      else .other := by
  simp [charClass, BitVec.le_def, ← BitVec.toNat_inj]

/-- The row that takes a code gives it the class that the ranges give. -/
theorem classOf_eq_charClass {i : Instr} {c : Byte} (hi : i.wellFormed = true) (hc : encode i = .hx c) :
    classOf i = some (charClass c) := by
  cases i with
  | crcInit seed => exact CodeIsInItsClass.crcInit seed c hi hc
  | crcByte x b => exact CodeIsInItsClass.crcByte x b c hi hc
  | hxSor => exact CodeIsInItsClass.hxSor c hi hc
  | hxEolLf => exact CodeIsInItsClass.hxEolLf c hi hc
  | hxEolCr => exact CodeIsInItsClass.hxEolCr c hi hc
  | hxDec07 v => exact CodeIsInItsClass.hxDec07 v c hi hc
  | hxDec89 v => exact CodeIsInItsClass.hxDec89 v c hi hc
  | hxAlphaA k => exact CodeIsInItsClass.hxAlphaA k c hi hc
  | hxAlphaBC k v => exact CodeIsInItsClass.hxAlphaBC k v c hi hc
  | hxAlphaDE k v => exact CodeIsInItsClass.hxAlphaDE k v c hi hc
  | hxAlphaF k => exact CodeIsInItsClass.hxAlphaF k c hi hc
  | hxOther x => exact CodeIsInItsClass.hxOther x c hi hc

theorem classOf_decode_hx (c : Byte) : classOf (decode (.hx c)) = some (charClass c) := by
  obtain ⟨hwf, hword⟩ := encode_decodeHx c
  exact classOf_eq_charClass hwf hword

/-- Settles O4: the class of the operation is the class by ranges, where an earlier range takes no code of a later one. -/
theorem characterClassesByRange : Obligations.CharacterClassesByRange := by
  intro c
  simp only [classOf_decode_hx, Option.some.injEq, charClass_eq, ← BitVec.toNat_inj]
  split_ifs <;> simp <;> omega

theorem charClass_eq_dec_iff (c : Byte) : charClass c = .dec ↔ 0x30 ≤ c.toNat ∧ c.toNat ≤ 0x39 := by
  obtain ⟨-, -, hdec, -, -⟩ := characterClassesByRange c
  simpa only [classOf_decode_hx, Option.some.injEq] using hdec

theorem charClass_eq_alpha_iff (c : Byte) :
    charClass c = .alpha ↔ (0x41 ≤ c.toNat ∧ c.toNat ≤ 0x46) ∨ (0x61 ≤ c.toNat ∧ c.toNat ≤ 0x66) := by
  obtain ⟨-, -, -, halpha, -⟩ := characterClassesByRange c
  simpa only [classOf_decode_hx, Option.some.injEq] using halpha

theorem nib_of_dec {c : Byte} (h : charClass c = .dec) : nib c = some (nibDec c) := by simp [nib, h]

theorem nib_of_alpha {c : Byte} (h : charClass c = .alpha) : nib c = some (nibAlpha c) := by simp [nib, h]

theorem isSome_nib_iff (c : Byte) : (nib c).isSome = true ↔ charClass c = .dec ∨ charClass c = .alpha := by
  rcases h : charClass c <;> simp [nib, h]

theorem nibDec_eq_ofNat {c : Byte} (h : 0x30 ≤ c.toNat ∧ c.toNat ≤ 0x39) :
    nibDec c = BitVec.ofNat 4 (c.toNat - 0x30) := by
  apply BitVec.eq_of_toNat_eq
  simp only [nibDec, BitVec.extractLsb'_toNat, Nat.shiftRight_zero, BitVec.toNat_ofNat]
  omega

/-- A letter counts from 10 on at the code `base` of `A` or `a`: both codes end in `0001`, and 1 + 9 is 10 (R49). -/
theorem nibAlpha_eq_ofNat {c : Byte} {base : Nat} (hbase : base % 16 = 1) (h : base ≤ c.toNat) :
    nibAlpha c = BitVec.ofNat 4 (c.toNat - base + 10) := by
  apply BitVec.eq_of_toNat_eq
  simp only [nibAlpha, BitVec.toNat_add, BitVec.extractLsb'_toNat, Nat.shiftRight_zero, BitVec.toNat_ofNat]
  omega

/-- Settles O6: by the class of each range; both letter cases are one argument. -/
theorem nibbleOfCharacter : Obligations.NibbleOfCharacter := by
  refine fun c => ⟨fun hc => ?_, fun hc => ?_, fun hc => ?_, isSome_nib_iff c⟩
  · rw [nib_of_dec ((charClass_eq_dec_iff c).mpr hc), nibDec_eq_ofNat hc]
  · rw [nib_of_alpha ((charClass_eq_alpha_iff c).mpr (.inl hc)), nibAlpha_eq_ofNat rfl hc.1]
  · rw [nib_of_alpha ((charClass_eq_alpha_iff c).mpr (.inr hc)), nibAlpha_eq_ofNat rfl hc.1]

end Sys2Proof.Proofs
end

section
namespace Sys2Proof.Proofs

open Sys2Proof.Machine Sys2Proof.Laws

/-! ### A pair of digits (30_encoding.md R50) -/

theorem toNat_append_nibbles (high low : Nibble) : (high ++ low).toNat = 16 * high.toNat + low.toNat := by
  rw [BitVec.toNat_append, ← Nat.shiftLeft_add_eq_or_of_lt low.isLt, Nat.shiftLeft_eq]
  omega

/-- A marker and a pair of digits leave the byte of the pair in a new record. -/
theorem performAll_hxText_first_pair {s : State} {c1 c2 : Byte} {high low : Nibble} (hs : LineStart s)
    (h1 : nib c1 = some high) (h2 : nib c2 = some low) :
    performAll (hxText [Config.hxSorCode, c1, c2]) s = .next (afterPair high low (startRecord s)) := by
  have hroom : TakesBytes (260 + 1) (startRecord s) := takesBytes_startRecord hs
  calc performAll (hxText [Config.hxSorCode, c1, c2]) s
      = performAll (hxText [c1, c2]) (startRecord s) := performAll_cons (exec_decodeHx_marker hs.1) _
    _ = performAll (hxText [c2]) (holdNibble high (startRecord s)) := performAll_cons (exec_high_digit hroom h1) _
    _ = .next (afterPair high low (startRecord s)) := performAll_cons (exec_low_digit hroom h2) _

/-- Settles O46: the pair's state, field by field. -/
theorem pairRecoversByte : Obligations.PairRecoversByte := by
  intro s c1 c2 high low hs h1 h2
  refine ⟨_, performAll_hxText_first_pair hs h1 h2, rfl, rfl, ?_, ?_, toNat_append_nibbles high low⟩
  · simp [afterPair, byteOfPair]
  · simp [afterPair, byteOfPair]

/-! ### The sender's checksum byte (30_encoding.md R58) -/

/-- The running sum is the sum of the bytes' numbers, modulo 256. -/
theorem toNat_sumBytes (bytes : List Byte) : (sumBytes bytes).toNat = (bytes.map BitVec.toNat).sum % 256 := by
  induction bytes with
  | nil => rfl
  | cons b bytes ih => simp [sumBytes, ih]

theorem sumBytes_append_singleton (bytes : List Byte) (b : Byte) : sumBytes (bytes ++ [b]) = sumBytes bytes + b := by
  induction bytes with
  | nil => simp [sumBytes]
  | cons x bytes ih => simp [sumBytes, ih, BitVec.add_assoc]

theorem toNat_checksumByte (bytes : List Byte) :
    (checksumByte bytes).toNat = (256 - (bytes.map BitVec.toNat).sum % 256) % 256 := by
  simp [checksumByte, toNat_sumBytes]

/-- Settles O52: the last byte adds to the sum of the others, so it closes the sum when it is that sum's negative. -/
theorem checksumByteClosesSum : Obligations.ChecksumByteClosesSum := by
  refine ⟨toNat_checksumByte, fun bytes cc => ?_, by decide⟩
  rw [sumBytes_append_singleton, checksumByte, BitVec.zero_sub]
  exact add_eq_zero_iff_neg_eq.trans eq_comm

end Sys2Proof.Proofs
end

section
namespace Sys2Proof.Proofs

open Sys2Proof.Machine Sys2Proof.Laws

/-! ### The operations of the CRC unit (40_crc.md R67 to R70) -/

theorem exec_crcInit (seed : Word) (s : State) :
    exec (.crcInit seed) s = .next { s with crcAcc := seed, crcSpec := true } := rfl

theorem exec_crcByte (x : BitVec 24) (b : Byte) (s : State) :
    exec (.crcByte x b) s = .next { (readAcc s).2 with crcAcc := crcStep (readAcc s).1 b } := execCrcByte_eq b s

theorem exec_crcByte_spec {s : State} (h : s.crcSpec = true) (x : BitVec 24) (b : Byte) :
    exec (.crcByte x b) s = .next { s with crcAcc := crcStep s.crcAcc b } := by
  rw [exec_crcByte, readAcc_spec h]

theorem exec_crcByte_free {s : State} (h : s.crcSpec = false) (x : BitVec 24) (b : Byte) :
    exec (.crcByte x b) s
      = .next { s with crcAcc := crcStep (Config.unspecWord s.draws) b, draws := s.draws + 1 } := by
  rw [exec_crcByte, readAcc_free h]

/-- The port puts out the accumulator as an operation would find it (R69). -/
theorem readPort_crcOut (s : State) :
    readPort .crcOut s = .next (emit (.crcOut (readAcc s).1) (readAcc s).2) := by
  rw [← readCrcOut_eq]
  rfl

theorem readPort_crcOut_spec {s : State} (h : s.crcSpec = true) :
    readPort .crcOut s = .next { s with outputs := s.outputs ++ [.crcOut s.crcAcc] } := by
  rw [readPort_crcOut, readAcc_spec h, emit]

theorem readPort_crcOut_free {s : State} (h : s.crcSpec = false) :
    readPort .crcOut s
      = .next { s with draws := s.draws + 1, outputs := s.outputs ++ [.crcOut (Config.unspecWord s.draws)] } := by
  rw [readPort_crcOut, readAcc_free h, emit]

/-- Settles O9: the word decodes by its fields, and the accumulator is specified in the state that is read. -/
theorem crcInitLoadsSeed : Obligations.CrcInitLoadsSeed := fun seed s =>
  ⟨decodeCrc_initWord seed, exec_crcInit seed s, by rw [readCrcOut_eq, readAcc_spec rfl]⟩

/-- Settles O10: the two ways the accumulator is found. -/
theorem crcByteFoldsOneByte : Obligations.CrcByteFoldsOneByte := fun x b _ =>
  ⟨fun h => exec_crcByte_spec h x b, fun h => exec_crcByte_free h x b⟩

/-- Settles O40: the two ways the accumulator is found. -/
theorem crcOutReadPort : Obligations.CrcOutReadPort := fun _ => ⟨readPort_crcOut_spec, readPort_crcOut_free⟩

/-! ### `crc32` as a sequence of operations (R70) -/

/-- A specified accumulator stays specified along `CRC.BYTES`. -/
theorem performAll_crcBytes (data : List Byte) {s : State} (h : s.crcSpec = true) :
    performAll (crcBytes data) s = .next { s with crcAcc := data.foldl crcStep s.crcAcc } := by
  induction data generalizing s with
  | nil => rfl
  | cons b data ih =>
    calc performAll (crcBytes (b :: data)) s
        = performAll (crcBytes data) { s with crcAcc := crcStep s.crcAcc b } :=
          performAll_cons (exec_crcByte_spec h 0#24 b) _
      _ = .next { s with crcAcc := data.foldl crcStep (crcStep s.crcAcc b) } := ih h

theorem performAll_crc32Ops (data : List Byte) (seed : Word) (s : State) :
    performAll (crc32Ops data seed) s = .next { s with crcAcc := data.foldl crcStep seed, crcSpec := true } := by
  rw [crc32Ops, performAll_cons (exec_crcInit seed s), performAll_crcBytes data rfl]

theorem crc32_append (x y : List Byte) (seed : Word) : crc32 (x ++ y) seed = crc32 y (crc32 x seed) := by
  simp only [crc32_eq_foldl, List.foldl_append]

/-- The check value of "123456789", accumulator by accumulator. -/
theorem crc32_check_value :
    crc32 [0x31#8, 0x32#8, 0x33#8, 0x34#8, 0x35#8, 0x36#8, 0x37#8, 0x38#8, 0x39#8] 0xFFFFFFFF#32 = 0x0376E6E7#32 := by
  have h1 : crcStep 0xFFFFFFFF#32 0x31#8 = 0x9EFBCF93#32 := by decide
  have h2 : crcStep 0x9EFBCF93#32 0x32#8 = 0x3FEC5E6A#32 := by decide
  have h3 : crcStep 0x3FEC5E6A#32 0x33#8 = 0xD952F164#32 := by decide
  have h4 : crcStep 0xD952F164#32 0x34#8 = 0xA695C4AA#32 := by decide
  have h5 : crcStep 0xA695C4AA#32 0x35#8 = 0xBD9AB747#32 := by decide
  have h6 : crcStep 0xBD9AB747#32 0x36#8 = 0xD8F06C8F#32 := by decide
  have h7 : crcStep 0xD8F06C8F#32 0x37#8 = 0x0D8A14C4#32 := by decide
  have h8 : crcStep 0x0D8A14C4#32 0x38#8 = 0x49E3C2FB#32 := by decide
  have h9 : crcStep 0x49E3C2FB#32 0x39#8 = 0x0376E6E7#32 := by decide
  simp only [crc32, h1, h2, h3, h4, h5, h6, h7, h8, h9]

/-- Settles O11: the operations leave the fold, which is `crc32`, and a fold is incremental. -/
theorem crc32IsFoldOfSteps : Obligations.Crc32IsFoldOfSteps := by
  refine ⟨performAll_crc32Ops, fun data seed s => ?_, fun _ => rfl, crc32_append, crc32_check_value⟩
  rw [readPort_crcOut_spec rfl, crc32_eq_foldl]

end Sys2Proof.Proofs
end

section
namespace Sys2Proof.Proofs

open Sys2Proof.Machine Sys2Proof.Laws

/-! ### The CRC round and step as linear maps (40_crc.md R65, R66, R71) -/

/-- The polynomial where the bit is set. -/
def polyIf (bit : Bool) : Word := if bit then Config.crcPoly else 0#32

theorem getLsbD_shiftLeft_of_lt (a : Word) {n i : Nat} (h : i < n) : (a <<< n).getLsbD i = false := by
  simp [h]

theorem getLsbD_shiftLeft_of_ge (a : Word) {n i : Nat} (h : n ≤ i) (hi : i < 32) :
    (a <<< n).getLsbD i = a.getLsbD (i - n) := by
  rw [BitVec.getLsbD_shiftLeft, decide_eq_true hi, decide_eq_false (Nat.not_lt.mpr h)]
  rfl

theorem polyIf_xor (p q : Bool) : polyIf (p ^^ q) = polyIf p ^^^ polyIf q := by
  cases p <;> cases q <;> rfl

theorem polyIf_eq_and_fill (bit : Bool) : polyIf bit = Config.crcPoly &&& BitVec.fill 32 bit := by
  cases bit <;> rfl

/-- The branch-free round. -/
theorem crcRound_eq (a : Word) : crcRound a = (a <<< 1) ^^^ polyIf (a.getLsbD 31) := by
  rw [crcRound]
  cases a.getLsbD 31 with
  | true => rfl
  | false => exact BitVec.xor_zero.symm

theorem crcRound_of_top {a : Word} (h : a.getLsbD 31 = true) : crcRound a = (a <<< 1) ^^^ Config.crcPoly := by
  rw [crcRound_eq, h, polyIf, if_pos rfl]

theorem crcRound_of_not_top {a : Word} (h : a.getLsbD 31 = false) : crcRound a = a <<< 1 := by
  rw [crcRound_eq, h]
  exact BitVec.xor_zero

/-- `{a[30:0], 0b0}`. -/
theorem extractLsb'_append_zero (a : Word) : a.extractLsb' 0 31 ++ 0#1 = a <<< 1 := by
  rw [BitVec.shiftLeft_eq_concat_of_lt (by decide : 1 < 32)]
  rfl

theorem crcRound_zero : crcRound 0#32 = 0#32 := rfl

theorem crcRound_xor (a a' : Word) : crcRound (a ^^^ a') = crcRound a ^^^ crcRound a' := by
  simp only [crcRound_eq, BitVec.shiftLeft_xor_distrib, BitVec.getLsbD_xor, polyIf_xor]
  ac_rfl

/-- The polynomial has the term 1, so the bit shifted out comes in at the bottom. -/
theorem getLsbD_zero_crcRound (a : Word) : (crcRound a).getLsbD 0 = a.getLsbD 31 := by
  have hpoly (bit : Bool) : (polyIf bit).getLsbD 0 = bit := by cases bit <;> rfl
  rw [crcRound_eq, BitVec.getLsbD_xor, hpoly, getLsbD_shiftLeft_of_lt a (by decide), Bool.false_xor]

/-- The result shows the bit shifted out, and with it what the other bits were. -/
theorem crcRound_injective : Function.Injective crcRound := by
  intro a a' h
  have htop : a.getLsbD 31 = a'.getLsbD 31 := by rw [← getLsbD_zero_crcRound, h, getLsbD_zero_crcRound]
  have hshift : a <<< 1 = a' <<< 1 := by
    rwa [crcRound_eq, crcRound_eq, htop, BitVec.xor_left_inj] at h
  refine BitVec.eq_of_getLsbD_eq fun i hi => ?_
  rcases Nat.lt_or_ge i 31 with hlt | hge
  · have hbit := congrArg (BitVec.getLsbD · (i + 1)) hshift
    have hi1 : i + 1 < 32 := by omega
    simpa only [getLsbD_shiftLeft_of_ge _ (Nat.le_add_left 1 i) hi1, Nat.add_sub_cancel] using hbit
  · obtain rfl : i = 31 := by omega
    exact htop

theorem crcRound_bijective : Function.Bijective crcRound := Finite.injective_iff_bijective.mp crcRound_injective

/-- Settles O7: the forms of the round, which loses no bit and so permutes the finitely many words. -/
theorem crcRoundShiftsThenFolds : Obligations.CrcRoundShiftsThenFolds := by
  refine ⟨fun a => ?_, crcRound_bijective, by decide, by decide, by decide, by decide⟩
  rw [extractLsb'_append_zero]
  refine ⟨crcRound_of_top, crcRound_of_not_top, ?_, getLsbD_zero_crcRound a⟩
  rw [crcRound_eq, polyIf_eq_and_fill, Config.crcPoly]

/-! #### Several rounds -/

theorem iterate_crcRound_xor (n : Nat) (a a' : Word) :
    crcRound^[n] (a ^^^ a') = crcRound^[n] a ^^^ crcRound^[n] a' := by
  induction n generalizing a a' with
  | zero => rfl
  | succ n ih => simp only [Function.iterate_succ_apply, crcRound_xor, ih]

theorem iterate_crcRound_zero (n : Nat) : crcRound^[n] 0#32 = 0#32 := Function.iterate_fixed crcRound_zero n

theorem iterate_crcRound_eq_zero_iff (n : Nat) (a : Word) : crcRound^[n] a = 0#32 ↔ a = 0#32 := by
  have h := (crcRound_injective.iterate n).eq_iff (a := a) (b := 0#32)
  rwa [iterate_crcRound_zero] at h

/-- While nothing but zeros is shifted out, the rounds are shifts. -/
theorem iterate_crcRound_of_top_clear {n : Nat} {a : Word} (h : ∀ i < n, a.getLsbD (31 - i) = false) :
    crcRound^[n] a = a <<< n := by
  induction n generalizing a with
  | zero => simp
  | succ n ih =>
    have htop : a.getLsbD 31 = false := h 0 (Nat.succ_pos n)
    have hrest : ∀ i < n, (a <<< 1).getLsbD (31 - i) = false := fun i hi => by
      rcases Nat.lt_or_ge (31 - i) 1 with hlt | hge
      · exact getLsbD_shiftLeft_of_lt a hlt
      · rw [getLsbD_shiftLeft_of_ge a hge (by omega), Nat.sub_sub]
        exact h (i + 1) (Nat.succ_lt_succ hi)
    rw [Function.iterate_succ_apply, crcRound_of_not_top htop, ih hrest, ← BitVec.shiftLeft_add, Nat.add_comm]

/-! #### The step -/

theorem crcStep_eq_iterate (a : Word) (b : Byte) : crcStep a b = crcRound^[8] (a ^^^ (b ++ 0#24)) := by
  rw [crcStep, crcRounds_eq_iterate, crcFold, crcInByte_eq]

theorem crcStep_bijective (b : Byte) : Function.Bijective fun a => crcStep a b := by
  have hfold : Function.Injective fun a : Word => a ^^^ (b ++ 0#24) := fun a a' h => (BitVec.xor_left_inj _).mp h
  have hstep : (fun a => crcStep a b) = crcRound^[8] ∘ fun a => a ^^^ (b ++ 0#24) :=
    funext fun a => crcStep_eq_iterate a b
  rw [hstep]
  exact (crcRound_bijective.iterate 8).comp (Finite.injective_iff_bijective.mp hfold)

/-- Settles O8: eight bijections after a fold, which is one. -/
theorem crcStepFoldsAndRounds : Obligations.CrcStepFoldsAndRounds :=
  ⟨crcStep_eq_iterate, crcStep_bijective, by decide⟩

theorem append_zero_xor (b b' : Byte) : (b ^^^ b') ++ 0#24 = (b ++ 0#24) ^^^ (b' ++ 0#24) := by
  rw [BitVec.xor_append, BitVec.xor_self]

theorem crcStep_xor (a a' : Word) (b b' : Byte) : crcStep (a ^^^ a') (b ^^^ b') = crcStep a b ^^^ crcStep a' b' := by
  simp only [crcStep_eq_iterate, ← iterate_crcRound_xor, append_zero_xor]
  congr 1
  ac_rfl

theorem crcStep_xor_byte (a : Word) (b e : Byte) : crcStep a (b ^^^ e) = crcStep a b ^^^ crcStep 0#32 e := by
  rw [← crcStep_xor, BitVec.xor_zero]

theorem crcStep_eq_xor (a : Word) (b : Byte) : crcStep a b = crcStep a 0#8 ^^^ crcStep 0#32 b := by
  rw [← crcStep_xor_byte, BitVec.zero_xor]

theorem crcStep_zero_byte (a : Word) : crcStep a 0#8 = crcRound^[8] a := by
  rw [crcStep_eq_iterate, BitVec.zero_append_zero, BitVec.xor_zero]

theorem crcStep_xor_acc (a d : Word) (b : Byte) : crcStep (a ^^^ d) b = crcStep a b ^^^ crcRound^[8] d := by
  rw [← crcStep_zero_byte, ← crcStep_xor, BitVec.xor_zero]

theorem crcStep_zero : crcStep 0#32 0#8 = 0#32 := by
  rw [crcStep_zero_byte, iterate_crcRound_zero]

/-- Settles O12: the fold and the rounds are linear. -/
theorem crcStepIsLinear : Obligations.CrcStepIsLinear := ⟨crcStep_xor, crcStep_eq_xor, crcStep_zero⟩

/-! #### The table form (R71(b)) -/

/-- An accumulator whose top byte meets its own value is shifted: the fold clears the byte that the rounds shift out. -/
theorem crcStep_top_byte (a : Word) : crcStep a (a.extractLsb' 24 8) = a <<< 8 := by
  have hbit (i : Nat) (hi : i < 32) :
      (a ^^^ (a.extractLsb' 24 8 ++ 0#24)).getLsbD i = (decide (i < 24) && a.getLsbD i) := by
    rw [BitVec.getLsbD_xor, BitVec.getLsbD_append]
    split_ifs with h
    · rw [decide_eq_true h, BitVec.getLsbD_zero, Bool.xor_false, Bool.true_and]
    · have hlt : i - 24 < 8 := by omega
      have hadd : 24 + (i - 24) = i := by omega
      rw [decide_eq_false h, BitVec.getLsbD_extractLsb', decide_eq_true hlt, hadd, Bool.true_and, Bool.xor_self,
        Bool.false_and]
  rw [crcStep_eq_iterate, iterate_crcRound_of_top_clear fun i hi => ?_]
  · refine BitVec.eq_of_getLsbD_eq fun i hi => ?_
    rcases Nat.lt_or_ge i 8 with hlt | hge
    · rw [getLsbD_shiftLeft_of_lt _ hlt, getLsbD_shiftLeft_of_lt _ hlt]
    · have hlow : i - 8 < 24 := by omega
      rw [getLsbD_shiftLeft_of_ge _ hge hi, getLsbD_shiftLeft_of_ge _ hge hi, hbit _ (by omega), decide_eq_true hlow,
        Bool.true_and]
  · rw [hbit _ (by omega)]
    have hhigh : ¬31 - i < 24 := by omega
    rw [decide_eq_false hhigh, Bool.false_and]

theorem crcStep_eq_table (a : Word) (b : Byte) :
    crcStep a b = (a <<< 8) ^^^ crcStep 0#32 (a.extractLsb' 24 8 ^^^ b) := by
  have hb : b = a.extractLsb' 24 8 ^^^ (a.extractLsb' 24 8 ^^^ b) := by
    rw [← BitVec.xor_assoc, BitVec.xor_self, BitVec.zero_xor]
  calc crcStep a b
      = crcStep a (a.extractLsb' 24 8 ^^^ (a.extractLsb' 24 8 ^^^ b)) := by rw [← hb]
    _ = crcStep a (a.extractLsb' 24 8) ^^^ crcStep 0#32 (a.extractLsb' 24 8 ^^^ b) := crcStep_xor_byte ..
    _ = (a <<< 8) ^^^ crcStep 0#32 (a.extractLsb' 24 8 ^^^ b) := by rw [crcStep_top_byte]

/-! #### The bit-serial form (R71(c)) -/

/-- One serial application: the data bit meets the bit shifted out. -/
def serialRound (acc : Word) (bit : Bool) : Word :=
  (acc <<< 1) ^^^ (if acc.getLsbD 31 ^^ bit then 0x04C11DB7#32 else 0#32)

/-- A data word still to be folded in gives its top bit to this round and the rest, shifted, to the rounds after it. -/
theorem crcRound_xor_eq_serialRound (acc d : Word) :
    crcRound (acc ^^^ d) = serialRound acc (d.getLsbD 31) ^^^ (d <<< 1) := by
  have hserial : serialRound acc (d.getLsbD 31) = (acc <<< 1) ^^^ polyIf (acc.getLsbD 31 ^^ d.getLsbD 31) := rfl
  rw [hserial, crcRound_eq, BitVec.shiftLeft_xor_distrib, BitVec.getLsbD_xor]
  ac_rfl

/-- Shifted by eight, a byte at the top is gone. -/
theorem append_zero_shiftLeft (b : Byte) : (b ++ 0#24 : Word) <<< 8 = 0#32 := by
  refine BitVec.eq_of_getLsbD_eq fun i hi => ?_
  rcases Nat.lt_or_ge i 8 with hlt | hge
  · rw [getLsbD_shiftLeft_of_lt _ hlt, BitVec.getLsbD_zero]
  · have hlow : i - 8 < 24 := by omega
    rw [getLsbD_shiftLeft_of_ge _ hge hi, BitVec.getLsbD_append, if_pos hlow, BitVec.getLsbD_zero, BitVec.getLsbD_zero]

/-- The low `k` bits of a byte, taken one by one from the highest, are `k` rounds on them at the top of the word. -/
theorem foldl_serialRound (k : Nat) (hk : k ≤ 8) (a : Word) (b : Byte) :
    (List.range k).reverse.foldl (fun acc j => serialRound acc (b.getLsbD j)) a
      = crcRound^[k] (a ^^^ ((b ++ 0#24 : Word) <<< (8 - k))) := by
  induction k generalizing a with
  | zero =>
    rw [append_zero_shiftLeft]
    exact BitVec.xor_zero.symm
  | succ k ih =>
    have htop : ((b ++ 0#24 : Word) <<< (8 - (k + 1))).getLsbD 31 = b.getLsbD k := by
      have hk24 : ¬31 - (8 - (k + 1)) < 24 := by omega
      rw [getLsbD_shiftLeft_of_ge _ (by omega) (by decide), BitVec.getLsbD_append, if_neg hk24]
      congr 1
      omega
    have hshift : ((b ++ 0#24 : Word) <<< (8 - (k + 1))) <<< 1 = (b ++ 0#24 : Word) <<< (8 - k) := by
      rw [← BitVec.shiftLeft_add, show 8 - (k + 1) + 1 = 8 - k by omega]
    rw [List.range_succ, List.reverse_append, List.reverse_singleton, List.singleton_append, List.foldl_cons,
      ih (Nat.le_of_succ_le hk), Function.iterate_succ_apply, crcRound_xor_eq_serialRound, htop, hshift]

/-- Settles O13: the table form, and the serial form of all eight bits. -/
theorem crcStepTableAndSerialForms : Obligations.CrcStepTableAndSerialForms := by
  refine ⟨crcStep_eq_table, fun a b => ?_⟩
  have hserial := foldl_serialRound 8 (Nat.le_refl 8) a b
  rw [Nat.sub_self, BitVec.shiftLeft_zero, ← crcStep_eq_iterate] at hserial
  exact hserial.symm

/-! #### `crc32` (R70, R71(e), (f)) -/

theorem crc32_cons (b : Byte) (data : List Byte) (a : Word) : crc32 (b :: data) a = crc32 data (crcStep a b) := rfl

/-- A change of the accumulator goes through the bytes that follow by the rounds alone. -/
theorem crc32_xor (data : List Byte) (a d : Word) :
    crc32 data (a ^^^ d) = crc32 data a ^^^ crcRound^[8 * data.length] d := by
  induction data generalizing a d with
  | nil => rfl
  | cons b data ih =>
    rw [crc32_cons, crc32_cons, crcStep_xor_acc, ih, ← Function.iterate_add_apply, List.length_cons, Nat.mul_succ]

/-- The bytes of a word, most significant first. -/
def bytesOf (a : Word) : List Byte :=
  [a.extractLsb' 24 8, a.extractLsb' 16 8, a.extractLsb' 8 8, a.extractLsb' 0 8]

/-- Each byte of the accumulator meets itself at the top and is shifted out. -/
theorem crc32_bytesOf (a : Word) : crc32 (bytesOf a) a = 0#32 := by
  have hbyte (k : Nat) (hk : k ≤ 24) : a.extractLsb' (24 - k) 8 = (a <<< k).extractLsb' 24 8 := by
    refine BitVec.eq_of_getLsbD_eq fun i hi => ?_
    rw [BitVec.getLsbD_extractLsb', BitVec.getLsbD_extractLsb', getLsbD_shiftLeft_of_ge a (by omega) (by omega),
      Nat.sub_add_comm hk]
  calc crc32 (bytesOf a) a
      = crc32 [a.extractLsb' 16 8, a.extractLsb' 8 8, a.extractLsb' 0 8] (a <<< 8) := by
        rw [bytesOf, crc32_cons, crcStep_top_byte]
    _ = crc32 [a.extractLsb' 8 8, a.extractLsb' 0 8] (a <<< 16) := by
        rw [crc32_cons, hbyte 8 (by decide), crcStep_top_byte, ← BitVec.shiftLeft_add]
    _ = crc32 [a.extractLsb' 0 8] (a <<< 24) := by
        rw [crc32_cons, hbyte 16 (by decide), crcStep_top_byte, ← BitVec.shiftLeft_add]
    _ = a <<< 32 := by
        rw [crc32_cons, hbyte 24 (by decide), crcStep_top_byte, ← BitVec.shiftLeft_add, crc32]
    _ = 0#32 := BitVec.shiftLeft_eq_zero (Nat.le_refl 32)

theorem crc32_zeros (n : Nat) : crc32 (List.replicate n 0#8) 0#32 = 0#32 := by
  induction n with
  | zero => rfl
  | succ n ih => rw [List.replicate_succ, crc32_cons, crcStep_zero, ih]

/-- Settles O15: the result's bytes come after the data, and meet the accumulator they are the bytes of. -/
theorem crcResidueIsZero : Obligations.CrcResidueIsZero :=
  ⟨fun data seed => (crc32_append data _ seed).trans (crc32_bytesOf (crc32 data seed)), crc32_zeros⟩

end Sys2Proof.Proofs
end

section
namespace Sys2Proof.Proofs

open Sys2Proof.Machine Sys2Proof.Laws
open Polynomial

/-! ### Vectors as polynomials over GF(2) (40_crc.md R71(d), R72) -/

theorem coeff_polynomialOf {w : Nat} (v : BitVec w) (i : Nat) :
    (polynomialOf v).coeff i = if v.getLsbD i then 1 else 0 := by
  have hterm (k : Nat) : (if v.getLsbD k then X ^ k else 0 : (ZMod 2)[X]).coeff i
      = if k = i then (if v.getLsbD i then 1 else 0) else 0 := by
    rcases eq_or_ne k i with rfl | hne
    · cases v.getLsbD k <;> simp
    · cases v.getLsbD k <;> simp [coeff_X_pow, hne, hne.symm]
  rw [polynomialOf, finsetSum_coeff, Finset.sum_congr rfl fun k _ => hterm k, Finset.sum_ite_eq']
  rcases Nat.lt_or_ge i w with hlt | hge
  · rw [if_pos (Finset.mem_range.mpr hlt)]
  · rw [BitVec.getLsbD_of_ge v i hge, if_neg Bool.false_ne_true, ite_self]

theorem polynomialOf_zero {w : Nat} : polynomialOf (0#w) = 0 := by
  ext i
  simp [coeff_polynomialOf]

/-- Exclusive-or is addition of polynomials. -/
theorem polynomialOf_xor {w : Nat} (u v : BitVec w) : polynomialOf (u ^^^ v) = polynomialOf u + polynomialOf v := by
  have hbit (p q : Bool) : (if p ^^ q then 1 else 0 : ZMod 2) = (if p then 1 else 0) + if q then 1 else 0 := by
    cases p <;> cases q <;> rfl
  ext i
  rw [coeff_add, coeff_polynomialOf, coeff_polynomialOf, coeff_polynomialOf, BitVec.getLsbD_xor, hbit]

/-- Zeros below are a power of x. -/
theorem polynomialOf_append_zero {w : Nat} (v : BitVec w) (n : Nat) :
    polynomialOf (v ++ 0#n) = polynomialOf v * X ^ n := by
  ext i
  rw [coeff_mul_X_pow', coeff_polynomialOf, BitVec.getLsbD_append]
  rcases Nat.lt_or_ge i n with hlt | hge
  · rw [if_pos hlt, if_neg (Nat.not_le.mpr hlt), BitVec.getLsbD_zero, if_neg Bool.false_ne_true]
  · rw [if_neg (Nat.not_lt.mpr hge), if_pos hge, coeff_polynomialOf]

/-- A single bit is a power of x. -/
theorem polynomialOf_one_shiftLeft {w j : Nat} (h : j < w) : polynomialOf (1#w <<< j) = X ^ j := by
  ext i
  rw [← BitVec.twoPow_eq, coeff_polynomialOf, BitVec.getLsbD_twoPow, decide_eq_true h, coeff_X_pow]
  simp [eq_comm]

theorem degree_polynomialOf_lt {w : Nat} (v : BitVec w) : (polynomialOf v).degree < w := by
  rw [degree_lt_iff_coeff_zero]
  intro i hi
  rw [coeff_polynomialOf, BitVec.getLsbD_of_ge v i hi, if_neg Bool.false_ne_true]

/-! #### The generator -/

/-- `CRC_POLY` is the generator without its leading term. -/
theorem generator_eq : generator = X ^ 32 + polynomialOf Config.crcPoly := by
  have hpoly : polynomialOf Config.crcPoly
      = X ^ 26 + X ^ 23 + X ^ 22 + X ^ 16 + X ^ 12 + X ^ 11 + X ^ 10 + X ^ 8 + X ^ 7 + X ^ 5 + X ^ 4 + X ^ 2 + X
        + 1 := by
    simp [polynomialOf, Config.crcPoly, Finset.sum_range_succ]
    ring
  rw [hpoly, generator]
  simp only [List.foldr_cons, List.foldr_nil]
  ring

theorem generator_monic : generator.Monic := by
  rw [generator_eq]
  exact monic_X_pow_add (degree_polynomialOf_lt _)

theorem degree_generator : generator.degree = (32 : Nat) := by
  rw [generator_eq]
  have hlt : (polynomialOf Config.crcPoly).degree < ((X : (ZMod 2)[X]) ^ 32).degree := by
    rw [degree_X_pow]
    exact degree_polynomialOf_lt Config.crcPoly
  rw [degree_add_eq_left_of_degree_lt hlt, degree_X_pow]

/-- A word is reduced: it is its own remainder. -/
theorem polynomialOf_modByMonic (a : Word) : polynomialOf a %ₘ generator = polynomialOf a := by
  rw [modByMonic_eq_self_iff generator_monic, degree_generator]
  exact degree_polynomialOf_lt a

/-! #### Rounds and steps -/

/-- Multiplied by x, a word is the word shifted and the bit shifted out. -/
theorem polynomialOf_mul_X (a : Word) :
    polynomialOf a * X = polynomialOf (a <<< 1) + if a.getLsbD 31 then X ^ 32 else 0 := by
  have hout (i : Nat) : (if a.getLsbD 31 then X ^ 32 else 0 : (ZMod 2)[X]).coeff i
      = if i = 32 ∧ a.getLsbD 31 = true then 1 else 0 := by
    cases a.getLsbD 31 <;> simp [coeff_X_pow]
  ext i
  rw [coeff_add, coeff_polynomialOf, hout]
  cases i with
  | zero => rw [coeff_mul_X_zero, getLsbD_shiftLeft_of_lt a Nat.zero_lt_one]; simp
  | succ i =>
    rw [coeff_mul_X, coeff_polynomialOf]
    rcases Nat.lt_trichotomy i 31 with hlt | rfl | hgt
    · rw [getLsbD_shiftLeft_of_ge a (Nat.le_add_left 1 i) (Nat.succ_lt_succ hlt), Nat.add_sub_cancel]
      simp [hlt.ne]
    · rw [BitVec.getLsbD_of_ge _ (31 + 1) (Nat.le_refl 32)]
      simp
    · rw [BitVec.getLsbD_of_ge a i hgt, BitVec.getLsbD_of_ge _ (i + 1) (by omega)]
      simp [hgt.ne']

theorem polynomialOf_polyIf (bit : Bool) :
    polynomialOf (polyIf bit) = if bit then polynomialOf Config.crcPoly else 0 := by
  cases bit with
  | true => rfl
  | false => exact polynomialOf_zero

/-- The round replaces the x^32 that is shifted out by the rest of the generator. -/
theorem polynomialOf_crcRound (a : Word) : polynomialOf (crcRound a) = (polynomialOf a * X) %ₘ generator := by
  have hdvd : generator ∣ polynomialOf (crcRound a) - polynomialOf a * X := by
    rw [crcRound_eq, polynomialOf_xor, polynomialOf_polyIf, polynomialOf_mul_X, add_sub_add_left_eq_sub]
    cases a.getLsbD 31 with
    | true => rw [if_pos rfl, if_pos rfl, CharTwo.sub_eq_add, add_comm, ← generator_eq]
    | false => simp
  rw [← polynomialOf_modByMonic (crcRound a)]
  exact modByMonic_eq_of_dvd_sub generator_monic hdvd

theorem polynomialOf_iterate_crcRound (n : Nat) (a : Word) :
    polynomialOf (crcRound^[n] a) = (polynomialOf a * X ^ n) %ₘ generator := by
  induction n with
  | zero => rw [pow_zero, mul_one, polynomialOf_modByMonic, Function.iterate_zero_apply]
  | succ n ih =>
    have hdvd : generator ∣ (polynomialOf a * X ^ n) %ₘ generator * X - polynomialOf a * X ^ (n + 1) := by
      rw [pow_succ, ← mul_assoc, ← sub_mul]
      exact (dvd_modByMonic_sub _ generator).mul_right X
    rw [Function.iterate_succ_apply', polynomialOf_crcRound, ih]
    exact modByMonic_eq_of_dvd_sub generator_monic hdvd

theorem polynomialOf_crcStep (a : Word) (b : Byte) :
    polynomialOf (crcStep a b) = (polynomialOf a * X ^ 8 + polynomialOf b * X ^ 32) %ₘ generator := by
  rw [crcStep_eq_iterate, polynomialOf_iterate_crcRound, polynomialOf_xor, polynomialOf_append_zero, add_mul, mul_assoc,
    ← pow_add]

/-- Settles O14: a round is multiplication by x, and the fold adds the byte at x^24. -/
theorem crcStepPolynomialReading : Obligations.CrcStepPolynomialReading :=
  ⟨polynomialOf_crcRound, polynomialOf_crcStep⟩

/-! #### A flipped bit (R72) -/

/-- What a change `e` of a byte makes of the result, with `n` bytes after it. -/
def byteChange (n : Nat) (e : Byte) : Word := crcRound^[8 * n] (crcStep 0#32 e)

theorem crc32_xor_byte (x y : List Byte) (b e : Byte) (seed : Word) :
    crc32 (x ++ (b ^^^ e) :: y) seed = crc32 (x ++ b :: y) seed ^^^ byteChange y.length e := by
  rw [crc32_append, crc32_append, crc32_cons, crc32_cons, crcStep_xor_byte, crc32_xor, byteChange]

theorem byteChange_eq_iterate (n : Nat) (e : Byte) : byteChange n e = crcRound^[8 * n + 8] (e ++ 0#24) := by
  rw [byteChange, crcStep_eq_iterate, BitVec.zero_xor, Function.iterate_add_apply]

theorem byteChange_ne_zero (n : Nat) {e : Byte} (h : e ≠ 0#8) : byteChange n e ≠ 0#32 := by
  rw [byteChange_eq_iterate, Ne, iterate_crcRound_eq_zero_iff]
  intro hz
  refine h (BitVec.eq_of_getLsbD_eq fun i hi => ?_)
  have hbit := congrArg (BitVec.getLsbD · (i + 24)) hz
  have hge : ¬i + 24 < 24 := by omega
  simpa only [BitVec.getLsbD_append, if_neg hge, Nat.add_sub_cancel, BitVec.getLsbD_zero] using hbit

theorem one_shiftLeft_ne_zero {j : Nat} (h : j < 8) : 1#8 <<< j ≠ 0#8 := by
  interval_cases j <;> decide

theorem polynomialOf_byteChange (n : Nat) {j : Nat} (hj : j < 8) :
    polynomialOf (byteChange n (1#8 <<< j)) = X ^ (8 * n + j + 32) %ₘ generator := by
  rw [byteChange_eq_iterate, polynomialOf_iterate_crcRound, polynomialOf_append_zero, polynomialOf_one_shiftLeft hj,
    ← pow_add, ← pow_add]
  congr 2
  omega

/-- Settles O16: the change is linear in the accumulator and does not depend on it; no round loses it. -/
theorem crcSingleBitFlipChangesResult : Obligations.CrcSingleBitFlipChangesResult := by
  intro data seed i j b hb hj
  obtain ⟨hi, hget⟩ := List.getElem?_eq_some_iff.mp hb
  have hsplit : data = data.take i ++ b :: data.drop (i + 1) := by
    rw [← hget, List.getElem_cons_drop hi, List.take_append_drop]
  have hafter : (data.drop (i + 1)).length = data.length - 1 - i := by
    rw [List.length_drop]
    omega
  have hflip : crc32 (data.set i (b ^^^ (1#8 <<< j))) seed
      = crc32 data seed ^^^ byteChange (data.length - 1 - i) (1#8 <<< j) := by
    rw [List.set_eq_take_append_cons_drop, if_pos hi, crc32_xor_byte, ← hsplit, hafter]
  have hne : byteChange (data.length - 1 - i) (1#8 <<< j) ≠ 0#32 := byteChange_ne_zero _ (one_shiftLeft_ne_zero hj)
  refine ⟨_, polynomialOf_byteChange _ hj, hflip, hne, fun heq => hne ?_⟩
  rw [hflip] at heq
  exact (BitVec.xor_right_inj (crc32 data seed)).mp (heq.trans BitVec.xor_zero.symm)

end Sys2Proof.Proofs
end

section
namespace Sys2Proof.Proofs

open Sys2Proof.Machine Sys2Proof.Laws

/-! ### The run of hex pairs after the marker (41_hex_decoder.md R95)

`HexRun` is the rule's own description of the bytes that a line delivers; it is compared with the whole-line procedure
once, in `hexRun_iff`. -/

/-- The text starts with `k` hex pairs (R95: "the 2k characters after position p are all hex digits"). -/
def HexRun (k : Nat) (cs : List Byte) : Prop := 2 * k ≤ cs.length ∧ ∀ c ∈ cs.take (2 * k), (nib c).isSome = true

theorem hexRun_zero (cs : List Byte) : HexRun 0 cs := by simp [HexRun]

theorem hexRun_succ (k : Nat) (c1 c2 : Byte) (cs : List Byte) :
    HexRun (k + 1) (c1 :: c2 :: cs) ↔ ((nib c1).isSome = true ∧ (nib c2).isSome = true) ∧ HexRun k cs := by
  simp only [HexRun, Nat.mul_succ, List.length_cons, List.take_succ_cons, List.forall_mem_cons,
    Nat.add_le_add_iff_right]
  tauto

/-- A pair needs two characters. -/
theorem hexRun_of_short {cs : List Byte} (h : cs.length < 2) (k : Nat) : HexRun k cs ↔ k = 0 := by
  constructor
  · rintro ⟨hlen, -⟩
    omega
  · rintro rfl
    exact hexRun_zero cs

/-- The whole-line procedure decodes the longest run of pairs that there is room for: a text starts with `k` pairs
exactly when at least `k` are decoded. -/
theorem hexRun_iff {k m : Nat} (hk : k ≤ m) (cs : List Byte) : HexRun k cs ↔ k ≤ (pairBytes m cs).length := by
  induction m, cs using pairBytes.induct generalizing k with
  | case1 cs => simp [Nat.le_zero.mp hk, hexRun_zero]
  | case2 m => simp [hexRun_of_short, pairBytes]
  | case3 m c => simp [hexRun_of_short, pairBytes]
  | case4 m c1 c2 cs high low h1 h2 ih =>
    cases k with
    | zero => simp [hexRun_zero]
    | succ k => simp [hexRun_succ, pairBytes, h1, h2, ih (Nat.le_of_succ_le_succ hk)]
  | case5 m c1 c2 cs h =>
    cases k with
    | zero => simp [hexRun_zero]
    | succ k =>
      have hno : ¬((nib c1).isSome = true ∧ (nib c2).isSome = true) := fun ⟨h1, h2⟩ => by
        obtain ⟨high, h1⟩ := Option.isSome_iff_exists.mp h1
        obtain ⟨low, h2⟩ := Option.isSome_iff_exists.mp h2
        exact h high low h1 h2
      simp [hexRun_succ, pairBytes, hno]

/-- Byte `j` is the pair `j` (R95). -/
theorem pairBytes_getElem? {m j : Nat} {cs : List Byte} (hj : j < (pairBytes m cs).length) :
    ∃ high low : Nibble, (cs[2 * j]?).bind nib = some high ∧ (cs[2 * j + 1]?).bind nib = some low
      ∧ (pairBytes m cs)[j]? = some (byteOfPair high low) := by
  induction m, cs using pairBytes.induct generalizing j with
  | case1 => simp [pairBytes] at hj
  | case2 => simp [pairBytes] at hj
  | case3 => simp [pairBytes] at hj
  | case4 m c1 c2 cs high low h2 h1 ih =>
    rw [pairBytes_pair h1 h2] at hj ⊢
    cases j with
    | zero => exact ⟨high, low, by simpa using h1, by simpa using h2, by simp⟩
    | succ j => simpa [Nat.mul_succ] using ih (by simpa using hj)
  | case5 m c1 c2 cs h => simp [pairBytes] at hj

/-- The bytes below a count, from what each index reads. -/
theorem bytesBelow_eq_take {m : Memory} {bytes : List Byte} {n : Nat} (h : ∀ i < n, Memory.read m i = bytes[i]?) :
    Memory.bytesBelow m n = bytes.take n := by
  induction n with
  | zero => simp [Memory.bytesBelow]
  | succ n ih =>
    rw [Memory.bytesBelow, ih fun i hi => h i (Nat.lt_succ_of_lt hi), h n (Nat.lt_succ_self n), List.take_add_one]

/-! #### Why consumption stopped -/

theorem lineBytes_length_le (cs : List Byte) : (lineBytes cs).length ≤ 261 := pairBytes_length_le Config.hexCap cs

theorem toNat_lineCount (cs : List Byte) : (BitVec.ofNat 9 (lineBytes cs).length).toNat = (lineBytes cs).length := by
  have := lineBytes_length_le cs
  rw [BitVec.toNat_ofNat]
  omega

theorem lineRest_eq_nil_iff (cs : List Byte) : lineRest cs = [] ↔ cs.length = 2 * (lineBytes cs).length := by
  have hrun : HexRun (lineBytes cs).length cs := (hexRun_iff (lineBytes_length_le cs) cs).mpr (Nat.le_refl _)
  obtain ⟨hlen, -⟩ := hrun
  rw [lineRest, List.drop_eq_nil_iff]
  omega

/-- The line ends right after its pairs (R95). -/
theorem lineStop_eq_clean_iff (cs : List Byte) : lineStop cs = .clean ↔ cs.length = 2 * (lineBytes cs).length := by
  rw [← lineRest_eq_nil_iff, lineStop]
  rcases lineRest cs with _ | ⟨c, rest⟩
  · simp [stopOf]
  · rcases hv : nib c with _ | v
    · simp [stopOf, hv]
    · simp only [stopOf, hv, reduceCtorEq, iff_false]
      split
      · nofun
      · cases rest <;> nofun

/-- A digit follows a full buffer (R95). -/
theorem stopOf_full {c : Byte} (h : (nib c).isSome = true) (rest : List Byte) :
    stopOf true (c :: rest) = .capacity := by
  obtain ⟨v, hv⟩ := Option.isSome_iff_exists.mp h
  simp [stopOf, hv]

/-- One digit of a pair is left over (R95). -/
theorem stopOf_lonely_digit {c : Byte} {v : Nibble} (h : nib c = some v) : stopOf false [c] = .heldDigit v := by
  simp [stopOf, h]

/-- The second character of a pair is no digit (R95). -/
theorem stopOf_broken_pair {c : Byte} {rest : List Byte} (h : (nib c).isSome = true) (hrest : rest ≠ []) :
    stopOf false (c :: rest) = .malformed := by
  obtain ⟨v, hv⟩ := Option.isSome_iff_exists.mp h
  cases rest with
  | nil => exact absurd rfl hrest
  | cons c2 rest => simp [stopOf, hv]

/-- The first character of a pair is no digit (R95). -/
theorem stopOf_nonDigit {c : Byte} (h : nib c = none) (full : Bool) (rest : List Byte) :
    stopOf full (c :: rest) = .malformed := by
  simp [stopOf, h]

/-! #### What a line with a marker leaves, in the terms of the whole line -/

/-- The state after the line's characters, from the line-start state `s`: `cs` are the characters after its marker. -/
structure LineEffect (cs : List Byte) (s t : State) : Prop where
  frame : t = { s with
    hxPhase := stopPhase (lineStop cs)
    hxNib := t.hxNib
    hxN := BitVec.ofNat 9 (lineBytes cs).length
    hxSum := sumBytes (lineBytes cs)
    hxBad := lineStop cs == .malformed
    hxOvf := lineStop cs == .capacity
    hxRb := t.hxRb }
  held : ∀ v, lineStop cs = .heldDigit v → t.hxNib = v
  written : ∀ i < (lineBytes cs).length, Memory.read t.hxRb i = (lineBytes cs)[i]?
  kept : ∀ i, (lineBytes cs).length ≤ i → Memory.read t.hxRb i = Memory.read s.hxRb i

/-- The marker empties the count and the sum, so the line's bytes are all there is. -/
theorem lineEffect_of_textEffect {cs : List Byte} {s t : State}
    (h : TextEffect Config.hexCap cs (startRecord s) t) : LineEffect cs s t where
  frame := by simpa [startRecord, lineBytes] using h.frame
  held := h.held
  written i hi := by simpa [lineBytes] using h.written i hi
  kept i hi := h.kept i (.inr (by simpa [lineBytes] using hi))

/-- What a line with a marker leaves (R95). -/
theorem performAll_hxText_lineEffect {line cs : List Byte} {s : State} (hl : isLine line = true) (hs : LineStart s)
    (hm : afterMarker line = some cs) : ∃ t, performAll (hxText line) s = .next t ∧ LineEffect cs s t := by
  obtain ⟨t, ht, heffect⟩ := performAll_hxText_line hl hs hm
  exact ⟨t, ht, lineEffect_of_textEffect heffect⟩

section
variable {cs : List Byte} {s t : State}

theorem LineEffect.phase (h : LineEffect cs s t) : t.hxPhase = stopPhase (lineStop cs) := by rw [h.frame]

theorem LineEffect.bad (h : LineEffect cs s t) : t.hxBad = (lineStop cs == .malformed) := by rw [h.frame]

theorem LineEffect.ovf (h : LineEffect cs s t) : t.hxOvf = (lineStop cs == .capacity) := by rw [h.frame]

theorem LineEffect.sum (h : LineEffect cs s t) : t.hxSum = sumBytes (lineBytes cs) := by rw [h.frame]

theorem LineEffect.count (h : LineEffect cs s t) : t.hxN.toNat = (lineBytes cs).length := by
  rw [h.frame]
  exact toNat_lineCount cs

theorem LineEffect.bytes (h : LineEffect cs s t) :
    Memory.bytesBelow t.hxRb (lineBytes cs).length = lineBytes cs := by
  rw [bytesBelow_eq_take h.written, List.take_length]

end

/-- Settles O49. -/
theorem textRefinesLineProcedure : Obligations.TextRefinesLineProcedure := by
  refine fun line s hl hs => ⟨performAll_hxText_no_marker hl hs.1, fun cs hm => ?_⟩
  obtain ⟨t, ht, heffect⟩ := performAll_hxText_lineEffect hl hs hm
  exact ⟨t, ht, heffect.frame, heffect.held, heffect.written, heffect.kept⟩

/-! #### The place of the first marker -/

/-- What stands before the first marker is passed over. -/
theorem afterMarker_append {junk : List Byte} (h : Config.hxSorCode ∉ junk) (line : List Byte) :
    afterMarker (junk ++ line) = afterMarker line := by
  induction junk with
  | nil => rfl
  | cons c junk ih =>
    rw [List.mem_cons, not_or] at h
    obtain ⟨hc, hjunk⟩ := h
    simpa [afterMarker, Ne.symm hc] using ih hjunk

theorem afterMarker_eq_none {junk : List Byte} (h : Config.hxSorCode ∉ junk) : afterMarker junk = none := by
  simpa [afterMarker] using afterMarker_append h []

theorem afterMarker_append_marker {junk : List Byte} (h : Config.hxSorCode ∉ junk) (cs : List Byte) :
    afterMarker (junk ++ Config.hxSorCode :: cs) = some cs := by
  simpa [afterMarker] using afterMarker_append h (Config.hxSorCode :: cs)

theorem exists_junk_of_afterMarker {line cs : List Byte} (h : afterMarker line = some cs) :
    ∃ junk, line = junk ++ Config.hxSorCode :: cs ∧ Config.hxSorCode ∉ junk := by
  induction line with
  | nil => cases h
  | cons c line ih =>
    by_cases hc : c = Config.hxSorCode
    · subst hc
      obtain rfl : line = cs := by simpa [afterMarker] using h
      exact ⟨[], rfl, List.not_mem_nil⟩
    · obtain ⟨junk, rfl, hjunk⟩ := ih (by simpa [afterMarker, hc] using h)
      exact ⟨c :: junk, rfl, by simp [Ne.symm hc, hjunk]⟩

theorem isLine_append (xs ys : List Byte) : isLine (xs ++ ys) = true ↔ isLine xs = true ∧ isLine ys = true := by
  simp [isLine, List.all_append]

/-- The marker is no terminator, so it joins what stands before and after it to one line. -/
theorem isLine_append_marker {junk cs : List Byte} (h : isLine (junk ++ cs) = true) :
    isLine (junk ++ Config.hxSorCode :: cs) = true := by
  obtain ⟨hjunk, hcs⟩ := (isLine_append junk cs).mp h
  exact (isLine_append _ _).mpr ⟨hjunk, isLine_cons.mpr ⟨by decide, hcs⟩⟩

/-! #### The rule in its own terms (R95) -/

/-- The state says why consumption stopped: the character `c` and then `rest` follow the decoded pairs. -/
theorem LineEffect.stopped {cs rest : List Byte} {c : Byte} {s t : State} (h : LineEffect cs s t)
    (hrest : lineRest cs = c :: rest) :
    ((nib c).isSome = true → (lineBytes cs).length = 261 → t.hxPhase = .skip ∧ t.hxOvf = true ∧ t.hxBad = false)
      ∧ ((nib c).isSome = true → (lineBytes cs).length < 261 → rest = [] →
          t.hxPhase = .lo ∧ nib c = some t.hxNib ∧ t.hxBad = false ∧ t.hxOvf = false)
      ∧ ((nib c).isSome = true → (lineBytes cs).length < 261 → rest ≠ [] →
          t.hxPhase = .skip ∧ t.hxBad = true ∧ t.hxOvf = false)
      ∧ (nib c = none → t.hxPhase = .skip ∧ t.hxBad = true ∧ t.hxOvf = false) := by
  have hfull : (lineBytes cs).length = 261 → lineStop cs = stopOf true (c :: rest) := fun hk => by
    rw [lineStop, hrest, hk]
    rfl
  have hroom : (lineBytes cs).length < 261 → lineStop cs = stopOf false (c :: rest) := fun hk => by
    have hne : (lineBytes cs).length ≠ Config.hexCap := Nat.ne_of_lt hk
    rw [lineStop, hrest, beq_false_of_ne hne]
  rw [h.phase, h.bad, h.ovf]
  refine ⟨fun hv hk => ?_, fun hv hk hnil => ?_, fun hv hk hne => ?_, fun hv => ?_⟩
  · rw [hfull hk, stopOf_full hv]
    exact ⟨rfl, rfl, rfl⟩
  · obtain ⟨v, hv⟩ := Option.isSome_iff_exists.mp hv
    have hstop : lineStop cs = .heldDigit v := by rw [hroom hk, hnil, stopOf_lonely_digit hv]
    rw [hstop, h.held v hstop]
    exact ⟨rfl, hv, rfl, rfl⟩
  · rw [hroom hk, stopOf_broken_pair hv hne]
    exact ⟨rfl, rfl, rfl⟩
  · rw [lineStop, hrest, stopOf_nonDigit hv]
    exact ⟨rfl, rfl, rfl⟩

/-- Settles O48: the longest run is what the whole-line procedure decodes. -/
theorem longestRunOfPairsIsDecoded : Obligations.LongestRunOfPairsIsDecoded := by
  intro junk cs s hl hjunk hs
  have hm : afterMarker (junk ++ Config.hxSorCode :: cs) = some cs := afterMarker_append_marker hjunk cs
  obtain ⟨t, ht, heffect⟩ := performAll_hxText_lineEffect (isLine_append_marker hl) hs hm
  obtain ⟨hljunk, -⟩ := (isLine_append junk cs).mp hl
  refine ⟨performAll_hxText_no_marker hljunk hs.1 (afterMarker_eq_none hjunk), (lineBytes cs).length, t,
    ⟨lineBytes_length_le cs, (hexRun_iff (lineBytes_length_le cs) cs).mpr (Nat.le_refl _)⟩,
    fun m hcap hlen hdigits => (hexRun_iff hcap cs).mp ⟨hlen, hdigits⟩, ht, heffect.count, fun j hj => ?_, ?_,
    fun hlen => ?_, fun c rest hrest => heffect.stopped hrest⟩
  · obtain ⟨high, low, hhigh, hlow, hbyte⟩ := pairBytes_getElem? hj
    exact ⟨high, low, hhigh, hlow, (heffect.written j hj).trans hbyte⟩
  · rw [heffect.bytes, heffect.sum]
  · rw [heffect.phase, heffect.bad, heffect.ovf, (lineStop_eq_clean_iff cs).mpr hlen]
    exact ⟨rfl, rfl, rfl⟩

end Sys2Proof.Proofs
end

section
namespace Sys2Proof.Proofs

open Sys2Proof.Machine Sys2Proof.Laws

/-! ### When a line is valid (41_hex_decoder.md R89, R91) -/

/-- A line that ends right after its pairs, in R91's words: every character after the marker is a digit, their number is
even and they fit. -/
theorem lineStop_eq_clean_iff_digits (cs : List Byte) :
    lineStop cs = .clean ↔ (∀ c ∈ cs, (nib c).isSome = true) ∧ cs.length % 2 = 0 ∧ cs.length ≤ 2 * 261 := by
  have hcap := lineBytes_length_le cs
  have hrun {k : Nat} (hk : k ≤ 261) : HexRun k cs ↔ k ≤ (lineBytes cs).length := hexRun_iff hk cs
  have hall {k : Nat} (hk : cs.length = 2 * k) : HexRun k cs ↔ ∀ c ∈ cs, (nib c).isSome = true := by
    simp [HexRun, ← hk]
  rw [lineStop_eq_clean_iff]
  constructor
  · intro hlen
    exact ⟨(hall hlen).mp ((hrun hcap).mpr (Nat.le_refl _)), by omega, by omega⟩
  · rintro ⟨hdigits, heven, hfits⟩
    have hhalf : cs.length = 2 * (cs.length / 2) := by omega
    have hle := (hrun (by omega)).mp ((hall hhalf).mpr hdigits)
    obtain ⟨hlen, -⟩ := (hrun hcap).mpr (Nat.le_refl _)
    omega

theorem stop_eq_clean_iff (stop : Stop) :
    stop = .clean ↔ stopIsBadDigit stop = false ∧ (stop == .capacity) = false := by
  cases stop <;> simp [stopIsBadDigit]

/-- The cause mask is zero exactly when none of the causes that a marker leaves possible applies. -/
theorem causes_eq_zero_iff : ∀ bad ovf empty sum : Bool,
    causeMask .badDigit bad ||| causeMask .overrun ovf ||| causeMask .empty empty ||| causeMask .checksum sum = 0#5
      ↔ (bad = false ∧ ovf = false) ∧ empty = false ∧ sum = false := by decide

/-- No cause applies to a line (R89, R95): it has a marker and ends right after its pairs, which are at least one and
sum to zero. -/
theorem lineErr_eq_zero_iff (line : List Byte) :
    lineErr line = 0#5
      ↔ ∃ cs, afterMarker line = some cs
          ∧ lineStop cs = .clean ∧ 1 ≤ (lineBytes cs).length ∧ sumBytes (lineBytes cs) = 0#8 := by
  rcases hm : afterMarker line with _ | cs
  · simp [lineErr, hm, causeMask, causeBit]
  · have hsum : ((lineBytes cs == []) = false ∧ (lineBytes cs != [] && sumBytes (lineBytes cs) != 0#8) = false)
        ↔ 1 ≤ (lineBytes cs).length ∧ sumBytes (lineBytes cs) = 0#8 := by
      cases lineBytes cs <;> simp
    simp only [lineErr, hm, causes_eq_zero_iff, ← stop_eq_clean_iff, hsum, Option.some.injEq, exists_eq_left']

/-- Under STRICT a verdict is valid when no cause applies (R91). -/
theorem validOf_strict_iff (err : BitVec 5) : validOf .strict err = true ↔ err = 0#5 := beq_iff_eq

/-- What the characters of a line leave: their verdict in the registers, and the line's bytes if it has a marker. -/
theorem performAll_hxText_leaves {line : List Byte} {s : State} (hl : isLine line = true) (hs : LineStart s) :
    ∃ t, performAll (hxText line) s = .next t ∧ t.outputs = s.outputs ∧ verdictOf t = lineVerdict .strict line
      ∧ ∀ cs, afterMarker line = some cs → LineEffect cs s t := by
  obtain ⟨t, ht, hout, hverdict⟩ := performAll_hxText_verdict .strict hl hs
  refine ⟨t, ht, hout, hverdict, fun cs hm => ?_⟩
  obtain ⟨t', ht', heffect⟩ := performAll_hxText_lineEffect hl hs hm
  cases ht.symm.trans ht'
  exact heffect

/-- A terminator ends the line that its characters have left. -/
theorem performAll_hxText_eol {line : List Byte} {i : Instr} {s t : State} (hi : isEolOp i = true)
    (ht : performAll (hxText line) s = .next t) : performAll (hxText line ++ [i]) s = .next (hxEndLine t) := by
  rw [performAll_append, ht, andThen_next, performAll_cons (congrFun (exec_of_isEolOp hi) t)]
  rfl

/-- The verdict counts the line's bytes: the count does not wrap (R34). -/
theorem toNat_nbytes_lineVerdict {line cs : List Byte} (hm : afterMarker line = some cs) (p : Config.StopPolicy) :
    (lineVerdict p line).nbytes.toNat = (lineBytes cs).length := by
  simp only [lineVerdict, hm]
  exact toNat_lineCount cs

/-- Settles O51: a line is valid when no cause applies to it, and its bytes stand below the count of its verdict. -/
theorem validLinesSpelledOut : Obligations.ValidLinesSpelledOut := by
  intro line i s hl hi hs
  obtain ⟨t, ht, hout, hverdict, heffect⟩ := performAll_hxText_leaves hl hs
  refine ⟨hxEndLine t, lineVerdict .strict line, performAll_hxText_eol hi ht, ?_, validOf_strict_iff _,
    (validOf_strict_iff _).trans ((lineErr_eq_zero_iff line).trans ?_)⟩
  · rw [hxEndLine_outputs, hout, hverdict]
  have hbytes {cs : List Byte} (hm : afterMarker line = some cs) :
      Memory.bytesBelow (hxEndLine t).hxRb (lineVerdict .strict line).nbytes.toNat = lineBytes cs := by
    rw [toNat_nbytes_lineVerdict hm]
    exact (heffect cs hm).bytes
  constructor
  · rintro ⟨cs, hm, hclean, hsome, hsum⟩
    obtain ⟨junk, hline, hjunk⟩ := exists_junk_of_afterMarker hm
    obtain ⟨hdigits, heven, hfits⟩ := (lineStop_eq_clean_iff_digits cs).mp hclean
    exact ⟨junk, cs, hline, hjunk, hdigits, heven, hfits, (toNat_nbytes_lineVerdict hm _).symm ▸ hsome,
      (hbytes hm).symm ▸ hsum⟩
  · rintro ⟨junk, cs, hline, hjunk, hdigits, heven, hfits, hsome, hsum⟩
    have hm : afterMarker line = some cs := hline ▸ afterMarker_append_marker hjunk cs
    exact ⟨cs, hm, (lineStop_eq_clean_iff_digits cs).mpr ⟨hdigits, heven, hfits⟩,
      toNat_nbytes_lineVerdict hm _ ▸ hsome, hbytes hm ▸ hsum⟩

end Sys2Proof.Proofs
end

section
namespace Sys2Proof.Proofs

open Sys2Proof.Machine Sys2Proof.Laws

/-! ### The record views (41_hex_decoder.md R93) -/

/-- From the end of a line to the next marker the record buffer shows `bytes`, and no more (R93). -/
structure HoldsRecord (bytes : List Byte) (s : State) : Prop where
  seek : s.hxPhase = .seek
  count : bytes.length = s.hxN.toNat
  held : ∀ i < s.hxN.toNat, Memory.read s.hxRb i = bytes[i]?

theorem HoldsRecord.viewByte {bytes : List Byte} {s : State} (h : HoldsRecord bytes s) (i : Nat) :
    viewByte s i = bytes[i]? := by
  rcases Nat.lt_or_ge i s.hxN.toNat with hi | hi
  · rw [viewByte_seek h.seek, rbByte_held hi, h.held i hi]
  · rw [viewByte_above hi, List.getElem?_eq_none (h.count ▸ hi)]

/-- A byte that is fixed is read without a draw. -/
theorem readView_fixed {s : State} {i : Nat} {b : Byte} (h : viewByte s i = some b) : readView i s = (b, s) := by
  simp [readView, fixedOrFree, h]

theorem readRecAddr_fixed {s : State} {byte1 byte2 : Byte} (h1 : viewByte s 1 = some byte1)
    (h2 : viewByte s 2 = some byte2) : readRecAddr s = (addressOf byte1 byte2, s) := by
  simp [readRecAddr, addressView_fixed h1 h2]

/-- A payload byte is fixed below `rec_count` (R93). -/
theorem payloadByte_fixed {s : State} {count : Byte} {k : Nat} (h : viewByte s 0 = some count)
    (hk : k < count.toNat) : payloadByte s k = viewByte s (4 + k) := by
  simp [payloadByte, h, hk]

/-- The view of the checksum is the last byte decoded (R93). -/
theorem HoldsRecord.checksumView {bytes : List Byte} {s : State} (h : HoldsRecord bytes s) :
    checksumView s = bytes.getLast? := by
  rw [Machine.checksumView, h.viewByte, ← h.count, ← List.getLast?_eq_getElem?]
  split
  · next hn =>
    have hnil : bytes = [] := List.length_eq_zero_iff.mp (by rw [h.count, hn]; rfl)
    rw [hnil]
    rfl
  · rfl

/-- The number of two vectors joined, the first one high. -/
theorem toNat_append_eq {m n : Nat} (x : BitVec m) (y : BitVec n) : (x ++ y).toNat = 2 ^ n * x.toNat + y.toNat := by
  rw [BitVec.toNat_append, ← Nat.shiftLeft_add_eq_or_of_lt y.isLt, Nat.shiftLeft_eq, Nat.mul_comm]

/-- Settles O42: every view reads bytes below the count, which are those of the list. -/
theorem recordViewsShowFields : Obligations.RecordViewsShowFields := by
  refine ⟨fun s => rfl, fun s bytes hp hheld hcount => ?_⟩
  have hs : HoldsRecord bytes s := ⟨hp, hcount, hheld⟩
  refine ⟨fun count h0 => ⟨?_, fun k b hk hb => ?_⟩, fun high low h1 h2 => ⟨high ++ low, ?_, ?_⟩, fun kind h3 => ?_,
    fun last hlast => ?_⟩
  · simp [readPort, readView_fixed ((hs.viewByte 0).trans h0), emit]
  · have hfixed : payloadByte s k.toNat = some b := by
      rw [payloadByte_fixed ((hs.viewByte 0).trans h0) hk, hs.viewByte, hb]
    simp [readPort, hfixed, fixedOrFree, emit]
  · exact toNat_append_eq high low
  · simp [readPort, readRecAddr_fixed ((hs.viewByte 1).trans h1) ((hs.viewByte 2).trans h2), addressOf, emit]
  · simp [readPort, readView_fixed ((hs.viewByte 3).trans h3), emit]
  · simp [readPort, hs.checksumView, hlast, fixedOrFree, emit]

end Sys2Proof.Proofs
end

section
namespace Sys2Proof.Proofs

open Sys2Proof.Machine Sys2Proof.Laws

/-! ### `decode(line)` (41_hex_decoder.md R94) -/

theorem lineStart_toLineStart (s : State) : LineStart (toLineStart s) := ⟨rfl, rfl, rfl⟩

/-- What was put out last at the end of a line is its verdict. -/
theorem lastVerdict_hxEndLine (s : State) : lastVerdict (hxEndLine s) = some (verdictOf s) := by
  simp [lastVerdict]

theorem performAll_hxLine {line : List Byte} {s t : State} (ht : performAll (hxText line) s = .next t) :
    performAll (hxLine line) s = .next (hxEndLine t) :=
  performAll_hxText_eol rfl ht

/-- A valid line is decoded to what the record views give at its end. -/
theorem decodeLine_of_valid {line : List Byte} {s t : State} (ht : performAll (hxText line) (toLineStart s) = .next t)
    (hv : (verdictOf t).valid = true) :
    decodeLine line s = some (.ok (readRecord (hxEndLine t)).1, (readRecord (hxEndLine t)).2) := by
  simp [decodeLine, performAll_hxLine ht, lastVerdict_hxEndLine, hv]

/-- Any other line is decoded to its cause mask. -/
theorem decodeLine_of_not_valid {line : List Byte} {s t : State}
    (ht : performAll (hxText line) (toLineStart s) = .next t) (hv : (verdictOf t).valid = false) :
    decodeLine line s = some (.error (verdictOf t).err, hxEndLine t) := by
  simp [decodeLine, performAll_hxLine ht, lastVerdict_hxEndLine, hv]

/-- Settles O54: the verdict that the line leaves is its own, and a zero mask would make it valid. -/
theorem rejectedLineGivesCauses : Obligations.RejectedLineGivesCauses := by
  intro line s hl hv
  obtain ⟨t, ht, -, hverdict, -⟩ := performAll_hxText_leaves hl (lineStart_toLineStart s)
  refine ⟨hxEndLine t, ?_, fun herr => ?_⟩
  · rw [decodeLine_of_not_valid ht (hverdict ▸ hv), hverdict]
    rfl
  · have hvalid : (lineVerdict .strict line).valid = true := (validOf_strict_iff _).mpr herr
    exact Bool.noConfusion (hv.symm.trans hvalid)

/-! #### A record as a sender writes it (30_encoding.md R47, R51, R58) -/

/-- The character that is written for a digit has the digit's value (R49), in capital or small letters. -/
theorem nib_hexChar : ∀ (small : Bool) (v : Nibble), nib (hexChar small v) = some v := by decide

theorem noTerminator_of_nib : ∀ c : Byte, (nib c).isSome = true → NoTerminator c := by decide

theorem isLine_of_digits {cs : List Byte} (h : ∀ c ∈ cs, (nib c).isSome = true) : isLine cs = true := by
  induction cs with
  | nil => rfl
  | cons c cs ih =>
    obtain ⟨hc, hcs⟩ := List.forall_mem_cons.mp h
    exact isLine_cons.mpr ⟨noTerminator_of_nib c hc, ih hcs⟩

/-- The two digits of a byte are its pair (R50). -/
theorem byteOfPair_nibbles : ∀ b : Byte, byteOfPair (b.extractLsb' 4 4) (b.extractLsb' 0 4) = b := by decide

/-- The pairs of some bytes. -/
abbrev hexPairs (small : Bool) (bytes : List Byte) : List Byte := bytes.flatMap (hexPair small)

theorem hexPairs_digits {small : Bool} {bytes : List Byte} {c : Byte} (h : c ∈ hexPairs small bytes) :
    (nib c).isSome = true := by
  obtain ⟨b, -, hc⟩ := List.mem_flatMap.mp h
  simp only [hexPair, List.mem_cons, List.not_mem_nil, or_false] at hc
  rcases hc with rfl | rfl <;> simp [nib_hexChar]

theorem length_hexPairs (small : Bool) (bytes : List Byte) : (hexPairs small bytes).length = 2 * bytes.length := by
  simp [hexPair, Nat.mul_comm]

/-- Where they fit, the pairs of some bytes are decoded to those bytes. -/
theorem pairBytes_hexPairs (small : Bool) {m : Nat} {bytes : List Byte} (h : bytes.length ≤ m) :
    pairBytes m (hexPairs small bytes) = bytes := by
  induction bytes generalizing m with
  | nil => cases m <;> rfl
  | cons b bytes ih =>
    obtain ⟨m, rfl⟩ : ∃ n, m = n + 1 := ⟨m - 1, by simp at h; omega⟩
    have hpair : hexPairs small (b :: bytes)
        = hexChar small (b.extractLsb' 4 4) :: hexChar small (b.extractLsb' 0 4) :: hexPairs small bytes := rfl
    rw [hpair, pairBytes_pair (nib_hexChar _ _) (nib_hexChar _ _), byteOfPair_nibbles, ih (by simpa using h)]

/-- The checksum byte closes the record's sum (R58). -/
theorem sumBytes_recordBytes (r : HexRecord) : sumBytes (recordBytes r) = 0#8 := by
  obtain ⟨-, hcloses, -⟩ := checksumByteClosesSum
  exact (hcloses _ _).mpr rfl

theorem length_recordBytes (r : HexRecord) : (recordBytes r).length = r.payload.length + 5 := by
  simp [recordBytes, recordBody]

theorem recordBytes_getElem?_payload {r : HexRecord} {k : Nat} (hk : k < r.payload.length) :
    (recordBytes r)[4 + k]? = r.payload[k]? := by
  have hdrop : (recordBytes r)[4 + k]? = (r.payload ++ [checksumByte (recordBody r)])[k]? := by
    rw [Nat.add_comm]
    simp [recordBytes, recordBody]
  rw [hdrop, List.getElem?_append_left hk]

theorem addressOf_bytes (address : Half) : addressOf (address.extractLsb' 8 8) (address.extractLsb' 0 8) = address := by
  apply BitVec.eq_of_toNat_eq
  rw [addressOf, toNat_append_eq, BitVec.extractLsb'_toNat, BitVec.extractLsb'_toNat, Nat.shiftRight_eq_div_pow]
  omega

/-- The payload that the views give, where each is fixed. -/
theorem readPayload_fixed {s : State} {payload : List Byte} {k : Nat}
    (h : ∀ i < payload.length, payloadByte s (k + i) = payload[i]?) :
    readPayload payload.length k s = (payload, s) := by
  induction payload generalizing k with
  | nil => rfl
  | cons b payload ih =>
    have hfirst : payloadByte s k = some b := h 0 (by simp)
    have hrest : readPayload payload.length (k + 1) s = (payload, s) := ih fun i hi => by
      simpa [Nat.add_assoc, Nat.add_comm 1] using h (i + 1) (by simpa using hi)
    simp [readPayload, hfirst, fixedOrFree, hrest]

/-- The views give back a record whose bytes the buffer holds (R93). -/
theorem readRecord_of_holds {r : HexRecord} {s : State} (hr : r.wellFormed = true)
    (h : HoldsRecord (recordBytes r) s) : readRecord s = (r, s) := by
  have hlen : r.payload.length = r.byteCount.toNat := beq_iff_eq.mp hr
  have hcount : viewByte s 0 = some r.byteCount := h.viewByte 0
  have hkind : viewByte s 3 = some r.recordType := h.viewByte 3
  have haddress : readRecAddr s = (r.address, s) := by
    rw [readRecAddr_fixed (h.viewByte 1) (h.viewByte 2)]
    exact congrArg (·, s) (addressOf_bytes r.address)
  have hpayload : readPayload r.byteCount.toNat 0 s = (r.payload, s) := hlen ▸ readPayload_fixed fun i hi => by
    rw [Nat.zero_add, payloadByte_fixed hcount (hlen ▸ hi), h.viewByte, recordBytes_getElem?_payload hi]
  simp [readRecord, readView_fixed hcount, haddress, readView_fixed hkind, hpayload]

/-- Settles O53: the line is valid, and at its end the buffer holds the record's bytes. -/
theorem sentRecordIsDecoded : Obligations.SentRecordIsDecoded := by
  intro junk small r s hl hjunk hr
  have hlen : r.payload.length = r.byteCount.toNat := beq_iff_eq.mp hr
  have hfits : (recordBytes r).length ≤ 261 := by
    rw [length_recordBytes]
    omega
  have hbytes : lineBytes (hexPairs small (recordBytes r)) = recordBytes r := pairBytes_hexPairs small hfits
  have hm : afterMarker (junk ++ recordLine small r) = some (hexPairs small (recordBytes r)) :=
    afterMarker_append_marker hjunk _
  have hline : isLine (junk ++ recordLine small r) = true :=
    isLine_append_marker ((isLine_append _ _).mpr ⟨hl, isLine_of_digits fun _ => hexPairs_digits⟩)
  have hvalid : (lineVerdict .strict (junk ++ recordLine small r)).valid = true := by
    refine (validOf_strict_iff _).mpr ((lineErr_eq_zero_iff _).mpr ⟨_, hm, ?_, ?_, ?_⟩)
    · rw [lineStop_eq_clean_iff, length_hexPairs, hbytes]
    · rw [hbytes, length_recordBytes]
      omega
    · rw [hbytes, sumBytes_recordBytes]
  obtain ⟨t, ht, -, hverdict, heffect⟩ := performAll_hxText_leaves hline (lineStart_toLineStart s)
  have hrecord : HoldsRecord (recordBytes r) (hxEndLine t) := by
    have h := heffect _ hm
    refine ⟨rfl, ?_, fun i hi => ?_⟩
    · rw [hxEndLine_hxN, h.count, hbytes]
    · rw [hxEndLine_hxN, h.count] at hi
      rw [hxEndLine_hxRb, h.written i hi, hbytes]
  exact ⟨hxEndLine t, by rw [decodeLine_of_valid ht (hverdict ▸ hvalid), readRecord_of_holds hr hrecord]⟩

end Sys2Proof.Proofs
end

section
namespace Sys2Proof.Proofs

open Sys2Proof.Machine Sys2Proof.Laws

/-! ### The operations of the HEX unit, phase by phase (41_hex_decoder.md section 2)

The marker and any other character differ in SEEK only. -/

theorem execHxSor_seek {s : State} (hp : s.hxPhase = .seek) : execHxSor s = .next (startRecord s) := by
  simp [execHxSor, hp]

theorem execHxSor_malformed {s : State} (hp : s.hxPhase = .hi ∨ s.hxPhase = .lo) :
    execHxSor s = .next (raiseCause .badDigit s) := by
  rcases hp with hp | hp <;> simp [execHxSor, hxNonDigit, hp]

theorem execHxSor_skip {s : State} (hp : s.hxPhase = .skip) : execHxSor s = .next s := by
  simp [execHxSor, hp]

theorem execHxOther_ignored {s : State} (hp : s.hxPhase = .seek ∨ s.hxPhase = .skip) : execHxOther s = .next s := by
  rcases hp with hp | hp <;> simp [execHxOther, hp]

theorem execHxOther_malformed {s : State} (hp : s.hxPhase = .hi ∨ s.hxPhase = .lo) :
    execHxOther s = .next (raiseCause .badDigit s) := by
  rcases hp with hp | hp <;> simp [execHxOther, hxNonDigit, hp]

/-- Settles O17. -/
theorem markerByPhase : Obligations.MarkerByPhase :=
  ⟨rfl, fun _ => ⟨fun hp => execHxSor_seek hp, fun hp => execHxSor_malformed (.inl hp),
    fun hp => execHxSor_malformed (.inr hp), fun hp => execHxSor_skip hp⟩⟩

/-- Settles O23. -/
theorem otherCharacterByPhase : Obligations.OtherCharacterByPhase :=
  fun _ _ => ⟨fun hp => execHxOther_ignored (.inl hp), fun hp => execHxOther_malformed (.inl hp),
    fun hp => execHxOther_malformed (.inr hp), fun hp => execHxOther_ignored (.inr hp)⟩

/-! #### The digits (R82 to R85) -/

theorem commit_fits (b : Byte) {s : State} (hn : s.hxN.toNat < Config.hexCap) :
    commit b s = .next (commitByte b s) := by
  simp [commit, hn]

/-- The shared digit operation, phase by phase (R84), with the write of the commit (R85). -/
theorem digitEffect_hxDigit (v : Nibble) (s : State) : DigitEffect v s (hxDigit v s) := by
  refine ⟨fun hp => hxDigit_ignored v (.inl hp), fun hp hn => hxDigit_hi_held v hp hn,
    fun hp hn => hxDigit_hi_full v hp hn, fun hp hn => ?_, fun hp => hxDigit_ignored v (.inr hp)⟩
  exact ⟨_, hxDigit_lo v hp hn, rfl, read_write_same _ _ _, fun a ha => read_write_other _ _ ha⟩

/-- An operation with a digit's value has that digit's effect. -/
theorem digitEffect_of_digitValue {i : Instr} {v : Nibble} (h : digitValue i = some v) (s : State) :
    DigitEffect v s (exec i s) := by
  rw [exec_of_digitValue h]
  exact digitEffect_hxDigit v s

/-- The values of the decimal digits (R49, R82). -/
theorem digitValue_hxDec07 : ∀ v : BitVec 3, digitValue (.hxDec07 v) = some (0#1 ++ v) := by decide

theorem digitValue_hxDec89 : ∀ v : Bit, digitValue (.hxDec89 v) = some (0b100#3 ++ v) := by decide

/-- Settles O18: both kinds of decimal digit are the shared digit operation with their value. -/
theorem decimalDigitByPhase : Obligations.DecimalDigitByPhase :=
  fun s => ⟨fun v => digitEffect_of_digitValue (digitValue_hxDec07 v) s,
    fun v => digitEffect_of_digitValue (digitValue_hxDec89 v) s⟩

/-- The values of the letters do not depend on the case bit (R49, R83). -/
theorem digitValue_letters : ∀ k : Bit,
    digitValue (.hxAlphaA k) = some 10#4 ∧ digitValue (.hxAlphaBC k 0#1) = some 11#4
      ∧ digitValue (.hxAlphaBC k 1#1) = some 12#4 ∧ digitValue (.hxAlphaDE k 0#1) = some 13#4
      ∧ digitValue (.hxAlphaDE k 1#1) = some 14#4 ∧ digitValue (.hxAlphaF k) = some 15#4 := by decide

/-- Settles O19: each letter is the shared digit operation with its value, whatever its case. -/
theorem letterDigitByPhase : Obligations.LetterDigitByPhase := by
  intro s k
  obtain ⟨ha, hb, hc, hd, he, hf⟩ := digitValue_letters k
  exact ⟨digitEffect_of_digitValue ha s, digitEffect_of_digitValue hb s, digitEffect_of_digitValue hc s,
    digitEffect_of_digitValue hd s, digitEffect_of_digitValue he s, digitEffect_of_digitValue hf s⟩

/-- Settles O21: the write is at the index of the old count, which does not wrap. -/
theorem commitAddsModulo256 : Obligations.CommitAddsModulo256 := by
  intro b s hn
  have hcount : (commitByte b s).hxN.toNat = s.hxN.toNat + 1 := toNat_count_succ hn
  refine ⟨commitByte b s, commit_fits b hn, BitVec.toNat_add _ _, hcount, rfl, read_write_same _ _ _, ?_⟩
  rw [hcount]
  exact bytesBelow_write_next _ _ _

/-! #### The running sum (R86) -/

theorem sumBytes_eq_sum (bytes : List Byte) : sumBytes bytes = bytes.sum := by
  induction bytes with
  | nil => rfl
  | cons b bytes ih => rw [sumBytes, ih, List.sum_cons]

/-- Settles O22: the bytes add up in a commutative group, where replacing a summand changes the sum. -/
theorem sumDetectsSingleByteErrors : Obligations.SumDetectsSingleByteErrors := by
  refine ⟨fun x y h => ?_, fun x i b b' hb hne heq => ?_⟩
  · rw [sumBytes_eq_sum, sumBytes_eq_sum, h.sum_eq]
  · obtain ⟨hi, rfl⟩ := List.getElem?_eq_some_iff.mp hb
    rw [sumBytes_eq_sum, sumBytes_eq_sum, List.sum_set', dif_pos hi, add_eq_left, neg_add_eq_zero] at heq
    exact hne heq.symm

/-! #### The terminator (R88 to R92) -/

/-- The mask of one cause is its own bit (R121). -/
theorem getLsbD_causeMask (c d : Cause) (applies : Bool) :
    (causeMask d applies).getLsbD (causeBit c) = (applies && decide (c = d)) := by
  cases applies with
  | false => simp [causeMask]
  | true => cases c <;> cases d <;> rfl

/-- Each bit of the mask is its own cause (R89, R121). -/
theorem getLsbD_errMask (s : State) (c : Cause) : (errMask s).getLsbD (causeBit c) = causeApplies s c := by
  simp only [errMask, BitVec.getLsbD_or, getLsbD_causeMask]
  cases c <;> simp

theorem count_ne_zero_iff (n : Count) : n ≠ 0#9 ↔ 1 ≤ n.toNat := by bv_omega

/-- Settles O24: the verdict is computed from the state before, each bit by its own cause. -/
theorem terminatorEmitsVerdict : Obligations.TerminatorEmitsVerdict := by
  refine ⟨rfl, rfl, fun s => ?_⟩
  have hbit (c : Cause) : (verdictOf s).err.getLsbD (causeBit c) = true ↔ causeApplies s c = true :=
    Bool.eq_iff_iff.mp (getLsbD_errMask s c)
  refine ⟨verdictOf s, hxEndLine s, rfl, rfl, rfl, (hbit .noStart).trans ?_, (hbit .badDigit).trans ?_,
    hbit .overrun, (hbit .empty).trans ?_, (hbit .checksum).trans ?_, validOf_strict_iff _, fun hp => ?_, fun hp => ?_⟩
  · simp [causeApplies, markerFound]
  · simp [causeApplies]
  · simp [causeApplies, markerFound]
  · simp [causeApplies, markerFound, ← count_ne_zero_iff, and_assoc]
  · simp [verdictOf, verdictUnder, markerFound, hp]
  · simp [verdictOf, verdictUnder, markerFound, hp]

/-- Under LENIENT bits 1 and 2 are not looked at (R92). -/
theorem validOf_lenient_iff (err : BitVec 5) :
    validOf .lenient err = true ↔ err.getLsbD 0 = false ∧ err.getLsbD 3 = false ∧ err.getLsbD 4 = false := by
  simp [validOf, and_assoc]

theorem validOf_lenient_ne_strict_iff : ∀ err : BitVec 5,
    validOf .lenient err ≠ validOf .strict err
      ↔ (err.getLsbD 1 = true ∨ err.getLsbD 2 = true)
        ∧ err.getLsbD 0 = false ∧ err.getLsbD 3 = false ∧ err.getLsbD 4 = false := by decide

/-- Settles O25: a policy is consulted for `valid` only, and that is a function of the mask. -/
theorem lenientPolicyDiffersOnStops : Obligations.LenientPolicyDiffersOnStops :=
  ⟨validOf_lenient_iff, fun s => ⟨rfl, rfl, validOf_lenient_ne_strict_iff (errMask s)⟩⟩

end Sys2Proof.Proofs
end

section
namespace Sys2Proof.Proofs

open Sys2Proof.Machine Sys2Proof.Laws

/-! ### What every operation of the HEX unit respects (41_hex_decoder.md R80, R90, R96) -/

/-- Settles O35: a terminator ends the line; no other effect touches the trace. -/
theorem onlyTerminatorsEmit : Obligations.OnlyTerminatorsEmit := by
  refine fun i s t h => ⟨fun hi => ?_, fun hi => ?_⟩
  · rw [exec_of_isEolOp hi] at h
    cases h
    exact hxEndLine_outputs s
  · cases execEffect_of_exec h with
    | ended heol => simp [hi] at heol
    | ignored => rfl
    | started => rfl
    | held => rfl
    | overrun => rfl
    | committed => rfl
    | malformed => rfl
    | crc => rfl

/-- Settles O36: each effect names the phases it leads from and to. -/
theorem phaseTransitions : Obligations.PhaseTransitions := by
  intro i s t h
  cases execEffect_of_exec h with
  | ignored => simp +contextual
  | started hi hp => simp [hi, hp]
  | held v hd hp => simp [hd, hp]
  | overrun hd hp => simp [hp]
  | committed b hd hp => simp [hd, hp]
  | malformed hi hp => rcases hp with hp | hp <;> simp [hp]
  | ended he => simp [he]
  | crc => simp +contextual

/-- Settles O31: an operation completes because a held digit fits, a read stops at an index outside the buffer only. -/
theorem operationsAreTotal : Obligations.OperationsAreTotal := by
  have hexec (i : Instr) {s : State} (h : BlockInv s) : ∃ t, exec i s = .next t := by
    obtain ⟨-, -, -, -, -, hfits, -, -⟩ := h
    exact exec_completes i hfits
  refine ⟨fun i s h => hexec i h, fun s h => ?_⟩
  rcases step_cases s with ⟨-, he⟩ | ⟨c, rest, -, he⟩ | ⟨p, rest, hp, he⟩ | ⟨rest, -, he⟩
  all_goals rw [he]
  · exact ⟨nofun, nofun⟩
  · obtain ⟨t, ht⟩ := hexec (decode c) (s := { s with pending := rest }) h
    rw [ht]
    exact ⟨nofun, nofun⟩
  · obtain ⟨hfault, hrefused⟩ := readPort_stops (p := p) (s := { s with pending := rest })
    refine ⟨hfault, fun x hx => ?_⟩
    obtain ⟨i, rfl, hi, hxi⟩ := hrefused x hx
    exact ⟨i, rest, hp, hi, hxi⟩
  · exact ⟨nofun, nofun⟩

/-- Settles O47. -/
theorem skipAbsorbsText : Obligations.SkipAbsorbsText := fun _ _ hl hp => performAll_hxText_skip hl hp

end Sys2Proof.Proofs
end

section
namespace Sys2Proof.Proofs

open Sys2Proof.Machine Sys2Proof.Laws

/-! ### The cause masks that occur (60_exceptions.md R127)

A mask is `NOSTART` alone, or the mask of a line with a marker, which the four other causes make up. -/

/-- The mask of a line with a marker, from the causes that apply (R89). -/
def markedMask (bad ovf empty sum : Bool) : BitVec 5 :=
  causeMask .badDigit bad ||| causeMask .overrun ovf ||| causeMask .empty empty ||| causeMask .checksum sum

theorem errMask_no_marker {s : State} (hp : s.hxPhase = .seek) (hb : s.hxBad = false) (ho : s.hxOvf = false) :
    errMask s = 0x01#5 := by
  simp [errMask, causeApplies, markerFound, causeMask, causeBit, hp, hb, ho]

theorem errMask_marked {s : State} (hp : s.hxPhase ≠ .seek) :
    errMask s
      = markedMask (s.hxBad || s.hxPhase == .lo) s.hxOvf (s.hxN == 0#9) (s.hxN != 0#9 && s.hxSum != 0#8) := by
  have hfound : markerFound s = true := bne_iff_ne.mpr hp
  have hmarker : causeMask .noStart (!true) = 0#5 := rfl
  simp only [errMask, causeApplies, hfound, hmarker, BitVec.zero_or, Bool.true_and, markedMask]

theorem lineErr_marked {line cs : List Byte} (hm : afterMarker line = some cs) :
    lineErr line
      = markedMask (stopIsBadDigit (lineStop cs)) (lineStop cs == .capacity) (lineBytes cs == [])
          (lineBytes cs != [] && sumBytes (lineBytes cs) != 0#8) := by
  simp only [lineErr, hm, markedMask]

/-- Three pairs of causes exclude each other; what is left is R127's. -/
theorem markedMask_mem : ∀ bad ovf empty sum : Bool,
    (ovf = true → bad = false) → (ovf = true → empty = false) → (empty = true → sum = false) →
      markedMask bad ovf empty sum ∈ [0x00#5, 0x01#5, 0x02#5, 0x04#5, 0x08#5, 0x10#5, 0x0A#5, 0x12#5, 0x14#5] := by
  decide

/-- The overrun flag stands in SKIP only, without the other flag and with the buffer full (R22(c), R22(d)). -/
theorem overrun_excludes {s : State} (hflags : FlagsOnlyInSkip s) (hfull : OverrunOnlyWhenFull s)
    (ho : s.hxOvf = true) : (s.hxBad || s.hxPhase == .lo) = false ∧ (s.hxN == 0#9) = false := by
  obtain ⟨-, hovf, hboth⟩ := hflags
  have hbad : s.hxBad = false := Bool.eq_false_iff.mpr fun hb => hboth ⟨hb, ho⟩
  have hn : s.hxN ≠ 0#9 := (count_ne_zero_iff _).mpr (by rw [hfull ho]; decide)
  exact ⟨by rw [hbad, hovf ho]; rfl, beq_false_of_ne hn⟩

theorem errMask_mem {s : State} (h : BlockInv s) :
    errMask s ∈ [0x00#5, 0x01#5, 0x02#5, 0x04#5, 0x08#5, 0x10#5, 0x0A#5, 0x12#5, 0x14#5] := by
  obtain ⟨-, -, hflags, hfull, -, -, -, -⟩ := h
  by_cases hp : s.hxPhase = .seek
  · obtain ⟨hb, ho⟩ := flags_clear hflags (by simp [hp])
    simp [errMask_no_marker hp hb ho]
  · rw [errMask_marked hp]
    refine markedMask_mem _ _ _ _ (fun ho => ?_) (fun ho => ?_) fun hempty => ?_
    · exact (overrun_excludes hflags hfull ho).1
    · exact (overrun_excludes hflags hfull ho).2
    · simp [beq_iff_eq.mp hempty]

/-! #### A line beyond the buffer's capacity (41_hex_decoder.md R84) -/

/-- The pairs of some bytes are decoded first, and what follows them with the room left. -/
theorem pairBytes_hexPairs_append (small : Bool) (bytes : List Byte) (m : Nat) (rest : List Byte) :
    pairBytes (bytes.length + m) (hexPairs small bytes ++ rest) = bytes ++ pairBytes m rest := by
  induction bytes with
  | nil => simp
  | cons b bytes ih =>
    have hpair : hexPairs small (b :: bytes) ++ rest
        = hexChar small (b.extractLsb' 4 4) :: hexChar small (b.extractLsb' 0 4) :: (hexPairs small bytes ++ rest) :=
      rfl
    rw [hpair, List.length_cons, Nat.add_right_comm, pairBytes_pair (nib_hexChar _ _) (nib_hexChar _ _),
      byteOfPair_nibbles, ih, List.cons_append]

/-- With the buffer full a further digit is beyond capacity, whatever the bytes. -/
theorem lineBytes_lineStop_overfull {bytes rest : List Byte} {c : Byte} (hlen : bytes.length = Config.hexCap)
    (hc : (nib c).isSome = true) :
    lineBytes (hexPairs false bytes ++ c :: rest) = bytes
      ∧ lineStop (hexPairs false bytes ++ c :: rest) = .capacity := by
  have hbytes : lineBytes (hexPairs false bytes ++ c :: rest) = bytes := by
    rw [lineBytes, ← hlen, ← Nat.add_zero bytes.length, pairBytes_hexPairs_append, pairBytes, List.append_nil]
  have hrest : lineRest (hexPairs false bytes ++ c :: rest) = c :: rest := by
    rw [lineRest, hbytes, ← length_hexPairs false, List.drop_left]
  refine ⟨hbytes, ?_⟩
  rw [lineStop, hbytes, hrest, hlen, beq_self_eq_true, stopOf_full hc]

/-- A line of 261 bytes, the first one `b` and the others zero, and one digit more. -/
def overfullLine (b : Byte) : List Byte :=
  Config.hxSorCode :: (hexPairs false (b :: List.replicate 260 0#8) ++ [0x30#8])

theorem sumBytes_cons_zeros (b : Byte) (n : Nat) : sumBytes (b :: List.replicate n 0#8) = b := by
  simp [sumBytes_eq_sum]

theorem isLine_overfullLine (b : Byte) : isLine (overfullLine b) = true :=
  isLine_cons.mpr ⟨by decide, (isLine_append _ _).mpr ⟨isLine_of_digits fun _ => hexPairs_digits, rfl⟩⟩

theorem lineErr_overfullLine (b : Byte) : lineErr (overfullLine b) = markedMask false true false (b != 0#8) := by
  have hm : afterMarker (overfullLine b) = some (hexPairs false (b :: List.replicate 260 0#8) ++ [0x30#8]) := rfl
  obtain ⟨hbytes, hstop⟩ := lineBytes_lineStop_overfull (bytes := b :: List.replicate 260 0#8) (rest := [])
    (c := 0x30#8) (by rw [List.length_cons, List.length_replicate]; rfl) (by decide)
  rw [lineErr_marked hm, hstop, hbytes, sumBytes_cons_zeros]
  rfl

/-- Settles O26: under the invariant the causes exclude each other; and each mask has its line, the empty one for
`NOSTART`, the two beyond capacity for `OVERRUN`, and `:`, `:00`, `:01` for the others, with a `G` added for
`BADDIGIT`. -/
theorem nineCauseMasks : Obligations.NineCauseMasks := by
  refine ⟨fun s => errMask_mem, fun m hm => ?_⟩
  simp only [List.mem_cons, List.not_mem_nil, or_false] at hm
  rcases hm with rfl | rfl | rfl | rfl | rfl | rfl | rfl | rfl | rfl
  · exact ⟨[0x3A#8, 0x30#8, 0x30#8], by decide⟩
  · exact ⟨[], by decide⟩
  · exact ⟨[0x3A#8, 0x30#8, 0x30#8, 0x47#8], by decide⟩
  · exact ⟨overfullLine 0#8, isLine_overfullLine _, lineErr_overfullLine _⟩
  · exact ⟨[0x3A#8], by decide⟩
  · exact ⟨[0x3A#8, 0x30#8, 0x31#8], by decide⟩
  · exact ⟨[0x3A#8, 0x47#8], by decide⟩
  · exact ⟨[0x3A#8, 0x30#8, 0x31#8, 0x47#8], by decide⟩
  · exact ⟨overfullLine 1#8, isLine_overfullLine _, lineErr_overfullLine _⟩

end Sys2Proof.Proofs
end

section
namespace Sys2Proof.Proofs

open Sys2Proof.Machine Sys2Proof.Laws

/-! ### Reads that draw (41_hex_decoder.md R93, 70_reset_and_hazards.md R137, R139)

A record view that is not fixed draws a free value; a short record and a late read are two reasons for it. -/

/-- A byte that is not fixed is read with one draw. -/
theorem readView_free {s : State} {i : Nat} (h : viewByte s i = none) : readView i s = drawByte s := by
  rw [readView, h]
  rfl

theorem readPort_recCount_free {s : State} (h : viewByte s 0 = none) :
    readPort .recCount s
      = .next { s with draws := s.draws + 1, outputs := s.outputs ++ [.recCount (Config.unspecByte s.draws)] } := by
  simp only [readPort, readView_free h, drawByte, emit]

theorem readPort_recAddr_free {s : State} (h : addressView s = none) :
    readPort .recAddr s
      = .next { s with draws := s.draws + 1, outputs := s.outputs ++ [.recAddr (Config.unspecHalf s.draws)] } := by
  simp [readPort, readRecAddr_eq, h, emit]

theorem readPort_recType_free {s : State} (h : viewByte s 3 = none) :
    readPort .recType s
      = .next { s with draws := s.draws + 1, outputs := s.outputs ++ [.recType (Config.unspecByte s.draws)] } := by
  simp only [readPort, readView_free h, drawByte, emit]

theorem readPort_recPayload_free {s : State} {k : Byte} (h : payloadByte s k.toNat = none) :
    readPort (.recPayload k) s
      = .next
          { s with draws := s.draws + 1, outputs := s.outputs ++ [.recPayload k (Config.unspecByte s.draws)] } := by
  simp only [readPort, h, fixedOrFree, drawByte, emit]

theorem readPort_recChecksum_free {s : State} (h : checksumView s = none) :
    readPort .recChecksum s
      = .next { s with draws := s.draws + 1, outputs := s.outputs ++ [.recChecksum (Config.unspecByte s.draws)] } := by
  simp only [readPort, h, fixedOrFree, drawByte, emit]

/-- A payload byte that the record does not reach is not fixed, whatever `rec_count` says (R139). -/
theorem payloadByte_short {s : State} {k : Nat} (h : s.hxN.toNat ≤ 4 + k) : payloadByte s k = none := by
  unfold payloadByte
  split
  · rw [viewByte_above h, ite_self]
  · rfl

/-- Settles O43: a view that reaches an index at or above the count is not fixed. -/
theorem shortRecordViewsAreFree : Obligations.ShortRecordViewsAreFree := fun _ =>
  ⟨fun h => readPort_recCount_free (viewByte_above h.le), fun h => readPort_recAddr_free (addressView_short h),
    fun h => readPort_recType_free (viewByte_above h), fun _ h => readPort_recPayload_free (payloadByte_short h)⟩

/-- Settles O44: from a marker to the end of its line no view is fixed. -/
theorem lateReadsAreFree : Obligations.LateReadsAreFree := by
  intro s hp
  obtain ⟨haddress, hpayload, hchecksum⟩ := views_late hp
  exact ⟨readPort_recCount_free (viewByte_late hp 0), readPort_recAddr_free haddress,
    readPort_recType_free (viewByte_late hp 3), fun k => readPort_recPayload_free (hpayload k.toNat),
    readPort_recChecksum_free hchecksum⟩

/-! ### The record between two lines (70_reset_and_hazards.md R137, R144) -/

/-- At the start of a line a terminator emits `NOSTART` with no byte, and does nothing else (R122). -/
theorem hxEndLine_lineStart {s : State} (h : LineStart s) :
    hxEndLine s = { s with outputs := s.outputs ++ [.verdict { valid := false, err := 0x01#5, nbytes := 0#9 }] } := by
  obtain ⟨hp, hbad, hovf⟩ := h
  have hverdict : verdictOf s = { valid := false, err := 0x01#5, nbytes := 0#9 } := by
    simp [verdictOf, verdictUnder, errMask_no_marker hp hbad hovf, validOf, Config.hexStopPolicy, markerFound, hp]
  simp [hxEndLine, emit, hverdict, hp, hbad, hovf]

/-- Settles O27: the first terminator leaves the line-start state, in which the second one comes. -/
theorem secondTerminatorIsNoStart : Obligations.SecondTerminatorIsNoStart := by
  intro i j s hi hj
  have hstart : LineStart (hxEndLine s) := ⟨rfl, rfl, rfl⟩
  exact ⟨verdictOf s, hxEndLine s, hxEndLine (hxEndLine s), by rw [exec_of_isEolOp hi], hxEndLine_outputs s,
    by rw [exec_of_isEolOp hj], hxEndLine_lineStart hstart, rfl, rfl⟩

/-- In SEEK every character but the marker leaves the state, or ends a line without a marker (R81, R88, R96). -/
theorem exec_decodeHx_seek_cases {c : Byte} {s : State} (hp : s.hxPhase = .seek) (hm : c ≠ Config.hxSorCode) :
    exec (decodeHx c) s = .next s ∨ exec (decodeHx c) s = .next (hxEndLine s) := by
  by_cases hlf : c = Config.hxLfCode
  · exact .inr (by rw [hlf]; rfl)
  by_cases hcr : c = Config.hxCrCode
  · exact .inr (by rw [hcr]; rfl)
  exact .inl (exec_decodeHx_seek ⟨hlf, hcr⟩ hm hp)

/-- What reads of the record depend on is the same in both states. -/
structure SameRecord (s t : State) : Prop where
  phase : t.hxPhase = s.hxPhase
  count : t.hxN = s.hxN
  buffer : t.hxRb = s.hxRb

theorem SameRecord.rbByte {s t : State} (h : SameRecord s t) (i : Nat) : rbByte t i = rbByte s i := by
  simp only [Machine.rbByte, h.count, h.buffer]

theorem SameRecord.viewByte {s t : State} (h : SameRecord s t) (i : Nat) : viewByte t i = viewByte s i := by
  simp only [Machine.viewByte, h.rbByte, h.phase]

/-- In SEEK every character but the marker leaves the record (R137). -/
theorem sameRecord_of_no_marker {c : Byte} {s : State} (hp : s.hxPhase = .seek) (hm : c ≠ Config.hxSorCode) :
    ∃ t, exec (decodeHx c) s = .next t ∧ SameRecord s t := by
  rcases exec_decodeHx_seek_cases hp hm with he | he
  · exact ⟨s, he, rfl, rfl, rfl⟩
  · exact ⟨hxEndLine s, he, hp.symm, rfl, rfl⟩

/-- Settles O45: no character but the marker touches the record; the marker sets the count to zero. -/
theorem recordHeldUntilNextMarker : Obligations.RecordHeldUntilNextMarker := by
  intro c s hp
  by_cases hm : c = Config.hxSorCode
  · subst hm
    exact ⟨startRecord s, exec_decodeHx_marker hp, fun hc => absurd rfl hc,
      fun _ => ⟨rfl, fun i => ⟨rbByte_above i.zero_le, viewByte_above i.zero_le⟩⟩⟩
  · obtain ⟨t, he, hsame⟩ := sameRecord_of_no_marker hp hm
    exact ⟨t, he,
      fun _ => ⟨hsame.phase.trans hp, hsame.count, hsame.buffer, fun i => ⟨hsame.rbByte i, hsame.viewByte i⟩⟩,
      fun hc => absurd hc hm⟩

end Sys2Proof.Proofs
end
